-- ==== Sys2Proof/Config.lean ====
section
/-! DEFINITION. What an instance of the block fixes: the one open parameter of 00_scope.md R5. The parameters R5 fixes are in
Machine/Params.lean. -/

namespace Sys2Proof

/-- The capacity of the receive buffer less one. It has no body: no proof can learn its value (R5 `RX_CAP` OPEN, D7). -/
opaque Config.rxCapPred : Nat

/-- `RX_CAP` of the instance: "a natural number at least 1" (R5). DESIGN CHOICE (log entry 1): a constant with no known value. -/
def Config.rxCap : Nat := Config.rxCapPred + 1

end Sys2Proof
end

