-- ==== Sys2Proof/Word.lean ====
section
/-! DEFINITION. The words of the block (00_scope.md R8) and the units its decoder reads: a command word (30_encoding.md R71)
or one byte of one of the three stages that classify bytes (R66, R67, R68). -/

namespace Sys2Proof

/-- A byte: 8 bits, numbered 7 down to 0 (R8). -/
abbrev Byte := BitVec 8

/-- A word16: 16 bits, numbered 15 down to 0 (R8). -/
abbrev Word16 := BitVec 16

/-- A command word: `op` in bits 19:16, `arg` in bits 15:0 (R71). -/
abbrev CmdWord := BitVec 20

/-- What the decoder reads: one command word, or one byte together with the stage that classifies it. The byte of a row of
format RXB, TXB or DEB does not say its stage (R81), so the unit does. Only a command word
is an input of the block (00_scope.md R7); the other units are what its stages classify. DESIGN CHOICE (log entry 5). -/
inductive Code where
  /-- A command word of the host (R71). -/
  | cmd (w : CmdWord)
  /-- A byte at the receive accumulator (R66). -/
  | rxb (b : Byte)
  /-- A payload byte at the escaper (R67). -/
  | txb (b : Byte)
  /-- The byte at the scan position of the de-escaper and the byte that follows it in the raw frame, if there is one (R68). -/
  | deb (b : Byte) (next : Option Byte)
deriving DecidableEq, Repr

end Sys2Proof
end

