-- ==== Sys2Proof/Machine/Params.lean ====
section
/-! DEFINITION. The fixed parameters of the block, under the names of 00_scope.md R5. -/

namespace Sys2Proof.Machine

/-- `CRC_POLY` (R5, 40_crc.md R100). -/
def crcPoly : Word16 := 0x1021

/-- `CRC_INIT` (R5). -/
def crcInit : Word16 := 0x0000

/-- `TX_START`, first byte of every transmitted frame (R5). -/
def txStart : Byte := 0x80

/-- `RX_START`, the byte the receive accumulator discards (R5). -/
def rxStart : Byte := 0x40

/-- `END`, the terminator of a frame in both directions (R5). -/
def frameEnd : Byte := 0x0d

/-- `ESC`, the escape prefix (R5). -/
def escPrefix : Byte := 0x1b

/-- `ESC_XOR`, the mask XOR-ed onto an escaped byte (R5). -/
def escXor : Byte := 0xff

/-- `RESERVED`, the bytes that must be escaped (R5, 41_escape.md R120). -/
def reserved : List Byte := [0x06, 0x0d, 0x1b, 0x40, 0x80]

/-- `REQ_HDR`, the first three bytes of a request body (R5). -/
def reqHdr : List Byte := [0x3f, 0x10, 0x01]

/-- `RSP_HDR`, first byte: what decoded byte 0 of a response must be (R5, 30_encoding.md R62). -/
def rspHdr0 : Byte := 0x3f

/-- `RSP_HDR`, second byte: what decoded byte 1 of a response must be (R5, R62). -/
def rspHdr1 : Byte := 0x10

end Sys2Proof.Machine
end

