-- ==== Sys2Proof/Machine/Operands.lean ====
section
/-! DEFINITION. Every operand form and every multi-byte assembly and bit field of the block (00_scope.md R9, 30_encoding.md R64,
R65, R71, R73): "These are the only multi-byte assemblies and bit-field extractions in the block". -/

namespace Sys2Proof.Machine

/-- `hi(w)` is `w[15:8]` (R9). -/
def hi (w : Word16) : Byte := w.extractLsb' 8 8

/-- `lo(w)` is `w[7:0]` (R9). -/
def lo (w : Word16) : Byte := w.extractLsb' 0 8

/-- `be16(a, b)` is the word16 `(a << 8) | b` (R9). -/
def be16 (a b : Byte) : Word16 := a ++ b

/-- `be(s)`: the natural number a sequence spells, most significant byte first (R9). -/
def be (s : List Byte) : Nat := s.foldl (fun n b => n * 256 + b.toNat) 0

/-- `op`, bits 19:16 of a command word (R71). -/
def cmdOp (w : CmdWord) : BitVec 4 := w.extractLsb' 16 4

/-- `arg`, bits 15:0 of a command word (R71): the register id of TX.REQ (R73). -/
def cmdArg (w : CmdWord) : Word16 := w.extractLsb' 0 16

/-- The command word of an `op` and an `arg` (R71). -/
def cmdWord (op : BitVec 4) (arg : Word16) : CmdWord := op ++ arg

/-- `arg` of an operation with a byte operand: `arg[7:0]` is the byte, `arg[15:8]` is zero (R72, R73). -/
def byteArg (b : Byte) : Word16 := b.setWidth 16

/-- Bits 5:0 of the exponent byte (R64): the exponent magnitude, 0 to 63. -/
def expMag (e : Byte) : Nat := (e.extractLsb' 0 6).toNat

/-- Bit 6 of the exponent byte (R64): negates the exponent. -/
def expNeg (e : Byte) : Bool := e.getLsbD 6

/-- Bit 7 of the exponent byte (R64): negates the final result. -/
def valNeg (e : Byte) : Bool := e.getLsbD 7

/-- `is_reserved(b)` (41_escape.md R120). -/
def isReserved (b : Byte) : Bool := reserved.contains b

/-- The escaped image of a byte, and the de-escaped value of the byte after a prefix (R65): `b ^ 0xff` on 8 bits. -/
def complement (b : Byte) : Byte := b ^^^ escXor

end Sys2Proof.Machine
end

