-- ==== Sys2Proof/Syntax.lean ====
section
/-! DEFINITION. The instructions: one constructor per row of spec/opcode_table.json. The first five are the operations the host
invokes (00_scope.md R7). The other eleven are the byte-class rows (30_encoding.md R66, R67, R68): what the receive accumulator,
the escaper and the de-escaper do, inside those operations, with one byte. -/

namespace Sys2Proof

/-- An instruction of the opcode table. -/
inductive Instr where
  /-- `CRC.CLR` (40_crc.md R105). -/
  | crcClr
  /-- `CRC.UPD b` (R106). -/
  | crcUpd (b : Byte)
  /-- `CRC.RD` (R107). -/
  | crcRd
  /-- `TX.REQ id` (42_tx_encode.md R146). -/
  | txReq (id : Word16)
  /-- `RX.BYTE b` (44_rx_accumulator.md R181). -/
  | rxByte (b : Byte)
  /-- `RXB.START`: a received `0x40` (R182). -/
  | rxbStart
  /-- `RXB.END`: a received `0x0d` (R184). -/
  | rxbEnd
  /-- `RXB.DATA`: any other received byte (R183). -/
  | rxbData (b : Byte)
  /-- `TXB.ESC`, the row of payload byte `0x06` (41_escape.md R121). -/
  | txbEsc06
  /-- `TXB.ESC`, the row of payload byte `0x0d` (R121). -/
  | txbEsc0D
  /-- `TXB.ESC`, the row of payload byte `0x1b` (R121). -/
  | txbEsc1B
  /-- `TXB.ESC`, the row of payload byte `0x40` (R121). -/
  | txbEsc40
  /-- `TXB.ESC`, the row of payload byte `0x80` (R121). -/
  | txbEsc80
  /-- `TXB.LIT`: any other payload byte (R121). -/
  | txbLit (b : Byte)
  /-- `DEB.ESC`: an escape prefix in a raw frame and the byte after it, absent at the end of the frame (R123, R127). -/
  | debEsc (next : Option Byte)
  /-- `DEB.LIT`: any other raw-frame byte (R123). -/
  | debLit (b : Byte)
deriving DecidableEq, Repr

end Sys2Proof
end

