-- ==== Sys2Proof/WellFormed.lean ====
section
/-! DEFINITION. Which instructions are well formed: the operand of a default row is none of the bytes that the specific rows of
its format match (30_encoding.md R66, R67, R68, R81). Every operand of an operation is legal (R73). -/

namespace Sys2Proof

/-- The operand lies in the row's range. -/
def Instr.wf : Instr → Bool
  | .crcClr => true
  | .crcUpd _ => true
  | .crcRd => true
  | .txReq _ => true
  | .rxByte _ => true
  | .rxbStart => true
  | .rxbEnd => true
  | .rxbData b => b != Machine.rxStart && b != Machine.frameEnd
  | .txbEsc06 => true
  | .txbEsc0D => true
  | .txbEsc1B => true
  | .txbEsc40 => true
  | .txbEsc80 => true
  | .txbLit b => !Machine.isReserved b
  | .debEsc _ => true
  | .debLit b => b != Machine.escPrefix

end Sys2Proof
end

