-- ==== Sys2Proof/Decode.lean ====
section
/-! DEFINITION. The decoder, total on every unit and refusing ill-formed command words by name (30_encoding.md R66 to R68, R72 to
R74), the encoder written from the same tables, and the host's view of both by table words. -/

namespace Sys2Proof

open Machine

/-- Why a command word matches no row of R72 (R74). -/
inductive DecodeError where
  /-- `op` is `0x0` or `0x6 .. 0xf`. -/
  | unassignedOp (op : BitVec 4)
  /-- `arg` of CRC.CLR or CRC.RD is not zero. -/
  | argNotZero (op : BitVec 4) (arg : Word16)
  /-- `arg[15:8]` of CRC.UPD or RX.BYTE is not zero. -/
  | argHighNotZero (op : BitVec 4) (arg : Word16)
deriving DecidableEq, Repr

/-- What the decoder answers. -/
inductive Decoded where
  /-- The unit is this instruction. -/
  | instr (i : Instr)
  /-- The unit is an ill-formed command word (R74). -/
  | illegal (e : DecodeError)
deriving DecidableEq, Repr

/-- An operation without operand: `arg` must be `0x0000` (R72). -/
def decodeNoArg (i : Instr) (op : BitVec 4) (arg : Word16) : Decoded :=
  if arg = 0x0000 then .instr i else .illegal (.argNotZero op arg)

/-- An operation with a byte operand: `arg[15:8]` must be `0x00`, the operand is `arg[7:0]` (R72, R73). -/
def decodeByteArg (f : Byte → Instr) (op : BitVec 4) (arg : Word16) : Decoded :=
  if hi arg = 0x00 then .instr (f (lo arg)) else .illegal (.argHighNotZero op arg)

/-- The command word table (R72); any other word is illegal (R74). -/
def decodeCmd (w : CmdWord) : Decoded :=
  if cmdOp w = 0x1 then decodeNoArg .crcClr (cmdOp w) (cmdArg w)
  else if cmdOp w = 0x2 then decodeByteArg .crcUpd (cmdOp w) (cmdArg w)
  else if cmdOp w = 0x3 then decodeNoArg .crcRd (cmdOp w) (cmdArg w)
  else if cmdOp w = 0x4 then .instr (.txReq (cmdArg w))
  else if cmdOp w = 0x5 then decodeByteArg .rxByte (cmdOp w) (cmdArg w)
  else .illegal (.unassignedOp (cmdOp w))

/-- The class of a received byte (R66). -/
def decodeRxb (b : Byte) : Instr :=
  if b = 0x40 then .rxbStart else if b = 0x0d then .rxbEnd else .rxbData b

/-- The class of a payload byte (R67): one row per reserved byte, any other byte is a literal. -/
def decodeTxb (b : Byte) : Instr :=
  if b = 0x06 then .txbEsc06
  else if b = 0x0d then .txbEsc0D
  else if b = 0x1b then .txbEsc1B
  else if b = 0x40 then .txbEsc40
  else if b = 0x80 then .txbEsc80
  else .txbLit b

/-- The class of a raw-frame byte at the scan position (R68, R70): a prefix takes the byte after it, if there is one; any other
byte stands alone. -/
def decodeDeb (b : Byte) (next : Option Byte) : Instr :=
  if b = 0x1b then .debEsc next else .debLit b

/-- The decoder. -/
def decode : Code → Decoded
  | .cmd w => decodeCmd w
  | .rxb b => .instr (decodeRxb b)
  | .txb b => .instr (decodeTxb b)
  | .deb b next => .instr (decodeDeb b next)

/-- The unit of an instruction, from the tables of R66 to R68 and R72. -/
def encode : Instr → Code
  | .crcClr => .cmd (cmdWord 0x1 0x0000)
  | .crcUpd b => .cmd (cmdWord 0x2 (byteArg b))
  | .crcRd => .cmd (cmdWord 0x3 0x0000)
  | .txReq id => .cmd (cmdWord 0x4 id)
  | .rxByte b => .cmd (cmdWord 0x5 (byteArg b))
  | .rxbStart => .rxb 0x40
  | .rxbEnd => .rxb 0x0d
  | .rxbData b => .rxb b
  | .txbEsc06 => .txb 0x06
  | .txbEsc0D => .txb 0x0d
  | .txbEsc1B => .txb 0x1b
  | .txbEsc40 => .txb 0x40
  | .txbEsc80 => .txb 0x80
  | .txbLit b => .txb b
  | .debEsc next => .deb 0x1b next
  | .debLit b => .deb b none

/-- The instruction of an answer, if it is one. -/
def Decoded.toOption : Decoded → Option Instr
  | .instr i => some i
  | .illegal _ => none

/-- The unit of a bare byte whose stage is not said. DESIGN CHOICE (log entry 6): the byte goes to a stage that has a row of its
own for it, the de-escaper before the accumulator before the escaper, and to the accumulator where no stage has one. The
eight bits are the whole unit: no byte follows a prefix. -/
def codeOfBareByte (b : Byte) : Code :=
  if b = escPrefix then .deb b none
  else if b = rxStart then .rxb b
  else if b = frameEnd then .rxb b
  else if isReserved b then .txb b
  else .rxb b

/-- The unit of a table word: 8 bits are a byte, 20 bits (24 in whole bytes) a command word. -/
def codeOfTableWord (nbits w : Nat) : Option Code :=
  if nbits = 8 then (if w < 2 ^ 8 then some (codeOfBareByte (BitVec.ofNat 8 w)) else none)
  else if nbits = 20 ∨ nbits = 24 then (if w < 2 ^ 20 then some (.cmd (BitVec.ofNat 20 w)) else none)
  else none

/-- The instruction the decoder reads from a table word, if it reads one. -/
def decodeTableWord (nbits w : Nat) : Option Instr :=
  match codeOfTableWord nbits w with
  | none => none
  | some c => (decode c).toOption

end Sys2Proof
end

