-- ==== Sys2Proof/Machine/State.lean ====
section
/-! DEFINITION. The state of the block (10_state.md R20), its outputs (R28, R29), the host's input (R27), and the reasons a step can
stop. Plain data throughout. -/

namespace Sys2Proof.Machine

/-- The statuses of an operation (60_exceptions.md R200). -/
inductive Status where
  /-- RX.BYTE completed nothing (44_rx_accumulator.md R185). -/
  | noEvent
  /-- All four decode steps passed. -/
  | frameOk
  /-- The residue of the decoded frame is not zero (R201). -/
  | crcErr
  /-- The header is not that of a response to the requested id, or no id was requested (R202). -/
  | hdrErr
  /-- A dangling escape prefix, or a frame too short for the step at hand (R203). -/
  | formatErr
  /-- A data byte arrived at a full buffer (R204). -/
  | overflow
  /-- The command word matches no operation (R205). -/
  | illegalOp
deriving DecidableEq, Repr

/-- The fields of an accepted response (43_decode_verify.md R164). -/
structure Fields where
  /-- The unit code, passed through uninterpreted. -/
  unit : Byte
  /-- `L`, the mantissa length in bytes. -/
  len : Nat
  /-- The exponent magnitude. -/
  expmag : Nat
  /-- The exponent is negative. -/
  expneg : Bool
  /-- The value is negative. -/
  valneg : Bool
  /-- The mantissa, an unbounded natural number (R166). -/
  mant : Nat
deriving DecidableEq, Repr

/-- The result record of RX.BYTE (10_state.md R29). -/
structure Record where
  /-- One of the first six statuses. -/
  status : Status
  /-- The number of escape-sequence anomalies of the frame just de-escaped. -/
  warn : Nat
  /-- Present only with `frameOk`. -/
  fields : Option Fields
deriving DecidableEq, Repr

/-- The result of one invocation (00_scope.md R11). The last two are outputs of a stage inside the block, which no operation returns. -/
inductive Result where
  /-- `result (none)`: CRC.CLR, CRC.UPD, TX.REQ. -/
  | nothing
  /-- The value CRC.RD returns. -/
  | word (v : Word16)
  /-- The record RX.BYTE returns. -/
  | record (r : Record)
  /-- The bare status of a refused command word, `illegalOp` (30_encoding.md R74). -/
  | status (st : Status)
  /-- The wire image of a payload byte, from a row of the escaper (41_escape.md R121; log entry 8). -/
  | image (bs : List Byte)
  /-- A de-escaped byte and its warning count, from a row of the de-escaper (R123, R126; log entry 8). -/
  | unescaped (v : Byte) (warn : Nat)
deriving DecidableEq, Repr

/-- What the host does to the block (10_state.md R27, 70_reset_and_hazards.md R230): it invokes one of "exactly these five"
operations (00_scope.md R7) by its command word, or resets. A unit of a stage inside the block is no input. -/
inductive Input where
  /-- An invocation, in its bit-level form (30_encoding.md R71). -/
  | cmd (w : CmdWord)
  /-- The reset event. -/
  | reset
deriving DecidableEq, Repr

/-- The state. The first four fields are the architectural state (R20: "There is no other state"); the next two are the block's
output streams; the last two are the model's own: the parameter of the instance and the host's queue. -/
structure State where
  /-- The CRC shift register (R21). -/
  crc : Word16
  /-- The register id of the most recent TX.REQ, or none since reset (R22). -/
  reqid : Option Word16
  /-- The receive buffer (R23, 20_memory.md R43): (index, byte) pairs, indices strictly rising, only cells that were stored to. -/
  rxbuf : List Host.Cell
  /-- The number of bytes accumulated (R24). -/
  rxlen : Nat
  /-- The transmit stream (R28). -/
  tx : List Byte
  /-- The results of the operations, in order, one for each (R29, R11; log entry 2). -/
  results : List Result
  /-- `RX_CAP` of the instance (00_scope.md R5; log entry 1). Nothing writes it. -/
  rxCap : Nat
  /-- What the host has presented and the block has not taken yet, oldest first (R27; log entry 3). -/
  pending : List Input
deriving DecidableEq, Repr

/-- Why the machine stops. Both are reached only in states that break the invariant of 10_state.md R25 and 44_rx_accumulator.md R186
(Safety.lean), which no step leaves. -/
inductive Fault where
  /-- Raised by `memRead` and `memWrite` (RX.BYTE, RXB.END, RXB.DATA) for an index at or above `RX_CAP`, a cell that 20_memory.md
  R43 says does not exist. Safe: the machine stops and no value is made up. -/
  | noSuchCell (index : Nat)
  /-- Raised by `memRead` (RX.BYTE, RXB.END) for a cell nothing has stored to (R44, U4). Safe: the machine stops and no value is
  made up. -/
  | unwrittenCell (index : Nat)
deriving DecidableEq, Repr

/-- Why an instruction has no meaning. -/
inductive Refusal where
  /-- The instruction has no meaning yet. Raised by `exec`; no arm raises it. Safe. -/
  | notModelled (mnemonic : String)
deriving DecidableEq, Repr

/-- The machine right after reset (10_state.md R32): "crc = 0x0000, reqid = none, rxlen = 0, rxbuf unspecified", nothing emitted. The
input queue and the result stream are empty (log entries 2 and 3), the capacity is the instance's (log entry 1), no cell holds
a value (log entry 4). -/
def State.reset : State where
  crc := 0x0000
  reqid := none
  rxbuf := []
  rxlen := 0
  tx := []
  results := []
  rxCap := Config.rxCap
  pending := []

end Sys2Proof.Machine
end

