-- ==== Sys2Proof/Machine/Flags.lean ====
section
/-! DEFINITION. The flag-like values: the status and the warning count of the result record (10_state.md R30: "The block has no flag
register"). -/

namespace Sys2Proof.Machine

/-- The numeric code of a status (60_exceptions.md R200). Code 6 is unused. -/
def Status.code : Status → Nat
  | .noEvent => 0
  | .frameOk => 1
  | .crcErr => 2
  | .hdrErr => 3
  | .formatErr => 4
  | .overflow => 5
  | .illegalOp => 7

/-- `(NONE, 0)` (44_rx_accumulator.md R185). -/
def Record.noEvent : Record := { status := .noEvent, warn := 0, fields := none }

/-- A failure of the decoder: a status and the warnings counted, no fields (10_state.md R29, 60_exceptions.md R201 to R203). -/
def Record.failed (st : Status) (warn : Nat) : Record := { status := st, warn := warn, fields := none }

/-- `(OVERFLOW, 0)` (R204). -/
def Record.overflow : Record := { status := .overflow, warn := 0, fields := none }

/-- `(FRAME_OK, warn, fields)` (43_decode_verify.md R160). -/
def Record.accepted (warn : Nat) (f : Fields) : Record := { status := .frameOk, warn := warn, fields := some f }

/-- What one escape pair adds to the warning count: 1 when its value is not in the reserved set (41_escape.md R123, R126). -/
def anomaly (v : Byte) : Nat := if isReserved v then 0 else 1

/-- The record of a result, if it is one and its status is not `NONE` (44_rx_accumulator.md R188). -/
def Result.event : Result → Option Record
  | .record r => if r.status = .noEvent then none else some r
  | .nothing => none
  | .word _ => none
  | .status _ => none
  | .image _ => none
  | .unescaped _ _ => none

end Sys2Proof.Machine
end

