-- ==== Sys2Proof/Machine/Ops.lean ====
section
/-! DEFINITION. The named operations over the receive buffer, the registers and the output streams, the common end of a frame
(60_exceptions.md R210), the refusal of a command word (R205), the reset event (70_reset_and_hazards.md R230), and what the host
puts in front of the block. -/

namespace Sys2Proof.Machine

/-- What a cell list holds at an index; an index it does not list holds no value (20_memory.md R44, U4; log entry 4). -/
def Memory.read : List Host.Cell → Nat → Option Byte
  | [], _ => none
  | (k, v) :: m, a => if a = k then some v else Memory.read m a

/-- The cell list with a byte stored at an index, still in rising order (R45). -/
def Memory.write : List Host.Cell → Nat → Byte → List Host.Cell
  | [], a, b => [(a, b)]
  | (k, v) :: m, a, b =>
    if a < k then (a, b) :: (k, v) :: m
    else if a = k then (k, b) :: m
    else (k, v) :: Memory.write m a b

/-- The canonical form: indices strictly rising. (No entry can equal what an unlisted index reads as, which is no value.) -/
def Memory.wf : List Host.Cell → Bool
  | [] => true
  | [_] => true
  | (k, _) :: (l, v) :: m => decide (k < l) && Memory.wf ((l, v) :: m)

/-- `MemRead(i, 1)` (00_scope.md R10, 20_memory.md R44). -/
def memRead (s : State) (i : Nat) : Except Fault Byte :=
  if i < s.rxCap then
    match Memory.read s.rxbuf i with
    | some b => .ok b
    | none => .error (.unwrittenCell i)
  else .error (.noSuchCell i)

/-- `MemWrite(i, 1, v)` (00_scope.md R10, 20_memory.md R45). -/
def memWrite (s : State) (i : Nat) (v : Byte) : Except Fault State :=
  if i < s.rxCap then .ok { s with rxbuf := Memory.write s.rxbuf i v } else .error (.noSuchCell i)

/-- `[MemRead(i,1), ..., MemRead(i+n-1,1)]`. -/
def memReads (s : State) (i : Nat) : Nat → Except Fault (List Byte)
  | 0 => .ok []
  | n + 1 =>
    match memRead s i with
    | .error f => .error f
    | .ok b =>
      match memReads s (i + 1) n with
      | .error f => .error f
      | .ok bs => .ok (b :: bs)

/-- The raw frame `rxbuf[0 .. rxlen)` (44_rx_accumulator.md R184). -/
def rawFrame (s : State) : Except Fault (List Byte) := memReads s 0 s.rxlen

/-- `crc <- v`. -/
def State.setCrc (s : State) (v : Word16) : State := { s with crc := v }

/-- `reqid <- id`. -/
def State.setReqid (s : State) (id : Word16) : State := { s with reqid := some id }

/-- `rxlen <- n`. -/
def State.setRxlen (s : State) (n : Nat) : State := { s with rxlen := n }

/-- `emit bs` (00_scope.md R11, 10_state.md R28). -/
def State.emit (s : State) (bs : List Byte) : State := { s with tx := s.tx ++ bs }

/-- `result r` (00_scope.md R11). -/
def State.deliver (s : State) (r : Result) : State := { s with results := s.results ++ [r] }

/-- What every status that ends a frame leaves behind (60_exceptions.md R210): the buffer is cleared, which "means rxlen <- 0 and need
not overwrite the array" (10_state.md R23), and the record is the operation's result. -/
def State.endFrame (s : State) (r : Record) : State := (s.setRxlen 0).deliver (.record r)

/-- The refusal of an ill-formed command word (30_encoding.md R74): "no state changes, nothing is emitted, and the operation's result
is the status ILLEGAL_OP". -/
def State.refuse (s : State) : State := s.deliver (.status .illegalOp)

/-- The reset event (70_reset_and_hazards.md R230, 10_state.md R32). The capacity is the instance's and the host's queue is the
host's: neither is reset (log entry 7). -/
def State.resetEvent (s : State) : State := { State.reset with rxCap := s.rxCap, pending := s.pending }

/-- The state with a command word at the front of the host's queue (log entry 3). -/
def State.presentCmd (s : State) (w : CmdWord) : State := { s with pending := .cmd w :: s.pending }

/-- The state with a frame in the receive buffer, from its first cell on. -/
def State.holdFrame (s : State) (f : List Byte) : State :=
  { s with rxbuf := f.zipIdx.foldl (fun m p => Memory.write m p.2 p.1) s.rxbuf, rxlen := f.length }

/-- The state whose next step runs a unit (log entry 3). A command word is presented. A byte of a stage is no operation (00_scope.md
R7), so it runs inside the operation whose stage meets it: a received byte in RX.BYTE of it, a payload byte in TX.REQ of the id
whose low byte it is, a raw-frame byte in the terminator after the frame it begins. -/
def State.presentUnit (s : State) : Code → State
  | .cmd w => s.presentCmd w
  | .rxb b => s.presentCmd (cmdWord 0x5 (byteArg b))
  | .txb b => s.presentCmd (cmdWord 0x4 (byteArg b))
  | .deb b next => (s.holdFrame (b :: next.toList)).presentCmd (cmdWord 0x5 (byteArg frameEnd))

end Sys2Proof.Machine
end

