-- ==== Sys2Proof/Machine/Crc.lean ====
section
/-! DEFINITION. The CRC16 Engine (40_crc.md): the bit step, the byte step, the whole-sequence function, and the meanings of CRC.CLR,
CRC.UPD and CRC.RD. -/

namespace Sys2Proof.Machine

/-- The 17 bits `t = (c << 1) | b` of the bit step (R101). -/
def crcShift (c : Word16) (b : Bool) : BitVec 17 := c ++ BitVec.ofBool b

/-- `crc_bit(c, b)` (R101): "The message bit is shifted into the low end of the register; the polynomial is XOR-ed in when a 1 is
shifted out of the high end." -/
def crcBit (c : Word16) (b : Bool) : Word16 :=
  if (crcShift c b).getLsbD 16 then (crcShift c b).extractLsb' 0 16 ^^^ crcPoly else (crcShift c b).extractLsb' 0 16

/-- The bits of a byte, bit 7 first (R102, 20_memory.md R41). -/
def bitsOf (d : Byte) : List Bool :=
  [d.getLsbD 7, d.getLsbD 6, d.getLsbD 5, d.getLsbD 4, d.getLsbD 3, d.getLsbD 2, d.getLsbD 1, d.getLsbD 0]

/-- `crc_byte(c, d)` (R102). -/
def crcByte (c : Word16) (d : Byte) : Word16 := (bitsOf d).foldl crcBit c

/-- `crc16(s)` (R103). -/
def crc16 (s : List Byte) : Word16 := s.foldl crcByte crcInit

/-- `CRC.CLR` (R105). -/
def execCrcClr (s : State) : Host.Outcome State Fault Refusal := .next ((s.setCrc crcInit).deliver .nothing)

/-- `CRC.UPD b` (R106). -/
def execCrcUpd (b : Byte) (s : State) : Host.Outcome State Fault Refusal :=
  .next ((s.setCrc (crcByte s.crc b)).deliver .nothing)

/-- `CRC.RD` (R107). -/
def execCrcRd (s : State) : Host.Outcome State Fault Refusal := .next (s.deliver (.word s.crc))

end Sys2Proof.Machine
end

