-- ==== Sys2Proof/Machine/Escape.lean ====
section
/-! DEFINITION. The escape codec (41_escape.md): escape of a byte and of a sequence, de-escape of a sequence, and the meanings of the
TXB and DEB rows. TX.REQ and the decoder apply these rows to every byte (R122, R123); no step runs one on its own (00_scope.md R7). As
an instruction a row delivers its output as a result and changes nothing else (log entry 8). -/

namespace Sys2Proof.Machine

/-- The two-byte image of a reserved byte (R121): "`[0x1b, byte XOR 0xff]`". -/
def escapedPair (b : Byte) : List Byte := [escPrefix, complement b]

/-- `escape_byte(b)` (R121). -/
def escapeByte (b : Byte) : List Byte := if isReserved b then escapedPair b else [b]

/-- `escape_seq(s)` (R122). -/
def escapeSeq (s : List Byte) : List Byte := s.flatMap escapeByte

/-- The result of `unescape_seq`: the decoded bytes and the warnings, or its one failure (R123). -/
inductive Unescaped where
  /-- The decoded bytes and the number of anomalous pairs. -/
  | bytes (d : List Byte) (warn : Nat)
  /-- A dangling prefix (R127): `FORMAT_ERR(warn)`. -/
  | formatErr (warn : Nat)
deriving DecidableEq, Repr

/-- A decoded byte in front of the rest of the scan. -/
def Unescaped.cons (v : Byte) : Unescaped → Unescaped
  | .bytes d warn => .bytes (v :: d) warn
  | .formatErr warn => .formatErr warn

/-- The scan of `unescape_seq` (R123) from a position with `warn` anomalies counted so far: a prefix takes the byte after it as data
whatever its value; a prefix with no byte after it fails; any other byte is copied. -/
def unescapeFrom : Nat → List Byte → Unescaped
  | warn, [] => .bytes [] warn
  | warn, [b] => if b = escPrefix then .formatErr warn else .bytes [b] warn
  | warn, b :: n :: f =>
    if b = escPrefix then (unescapeFrom (warn + anomaly (complement n)) f).cons (complement n)
    else (unescapeFrom warn (n :: f)).cons b

/-- `unescape_seq(f)` (R123). -/
def unescapeSeq (f : List Byte) : Unescaped := unescapeFrom 0 f

/-- What a row of the escaper outputs: the wire image (30_encoding.md R67; log entry 8). -/
def escapeUnit (image : List Byte) (s : State) : Host.Outcome State Fault Refusal := .next (s.deliver (.image image))

/-- `TXB.ESC`, row `0x06` (R121). -/
def execTxbEsc06 (s : State) : Host.Outcome State Fault Refusal := escapeUnit (escapedPair 0x06) s

/-- `TXB.ESC`, row `0x0d` (R121). -/
def execTxbEsc0D (s : State) : Host.Outcome State Fault Refusal := escapeUnit (escapedPair 0x0d) s

/-- `TXB.ESC`, row `0x1b` (R121). -/
def execTxbEsc1B (s : State) : Host.Outcome State Fault Refusal := escapeUnit (escapedPair 0x1b) s

/-- `TXB.ESC`, row `0x40` (R121). -/
def execTxbEsc40 (s : State) : Host.Outcome State Fault Refusal := escapeUnit (escapedPair 0x40) s

/-- `TXB.ESC`, row `0x80` (R121). -/
def execTxbEsc80 (s : State) : Host.Outcome State Fault Refusal := escapeUnit (escapedPair 0x80) s

/-- `TXB.LIT` (R121). -/
def execTxbLit (b : Byte) (s : State) : Host.Outcome State Fault Refusal := escapeUnit [b] s

/-- What a row of the de-escaper outputs: the de-escaped byte and its warning count (30_encoding.md R68; log entry 8). -/
def unescapeUnit (v : Byte) (warn : Nat) (s : State) : Host.Outcome State Fault Refusal :=
  .next (s.deliver (.unescaped v warn))

/-- `DEB.ESC` (R123): with the byte after it, one de-escaped byte; at the end of the frame, `FORMAT_ERR` with no warning counted
(R127). -/
def execDebEsc (next : Option Byte) (s : State) : Host.Outcome State Fault Refusal :=
  match next with
  | some n => unescapeUnit (complement n) (anomaly (complement n)) s
  | none => .next (s.deliver (.record (Record.failed .formatErr 0)))

/-- `DEB.LIT` (R123): the byte, unchanged. -/
def execDebLit (b : Byte) (s : State) : Host.Outcome State Fault Refusal := unescapeUnit b 0 s

end Sys2Proof.Machine
end

