-- ==== Sys2Proof/Machine/Rx.lean ====
section
/-! DEFINITION. The decoder and verifier (43_decode_verify.md), the receive accumulator (44_rx_accumulator.md), and the meanings of
RX.BYTE and the RXB rows. -/

namespace Sys2Proof.Machine

/-- The extracted fields of a response (R164): the unit code, `L`, the exponent byte and the bytes that follow them. -/
def extractFields (unit len e : Byte) (rest : List Byte) : Fields where
  unit := unit
  len := len.toNat
  expmag := expMag e
  expneg := expNeg e
  valneg := valNeg e
  mant := be (rest.take len.toNat)

/-- Step 4 of the decoder, on the decoded bytes from index 4 on (R164): fewer than three is R167 (b); the mantissa must lie wholly
before the two CRC bytes, R167 (c); bytes between the mantissa and the CRC are ignored (R168). -/
def decodeFields (warn : Nat) : List Byte → Record
  | unit :: len :: e :: rest =>
    if len.toNat + 2 > rest.length then Record.failed .formatErr warn
    else Record.accepted warn (extractFields unit len e rest)
  | _ => Record.failed .formatErr warn

/-- Step 3 of the decoder, header validation (R163), then step 4. Fewer than four bytes is R167 (a). -/
def decodeHeader (q : Option Word16) (warn : Nat) : List Byte → Record
  | d0 :: d1 :: d2 :: d3 :: rest =>
    match q with
    | none => Record.failed .hdrErr warn
    | some id =>
      if d0 = rspHdr0 ∧ d1 = rspHdr1 ∧ d2 = hi id ∧ d3 = lo id then decodeFields warn rest
      else Record.failed .hdrErr warn
  | _ => Record.failed .formatErr warn

/-- `decode(f, q)` (R160): de-escape (R161), residue (R162), header (R163), fields (R164); the first failure ends it (R169). -/
def decodeFrame (f : List Byte) (q : Option Word16) : Record :=
  match unescapeSeq f with
  | .formatErr warn => Record.failed .formatErr warn
  | .bytes d warn => if crc16 d ≠ 0x0000 then Record.failed .crcErr warn else decodeHeader q warn d

/-- A received start marker (R182): discarded. -/
def acceptStart (s : State) : Host.Outcome State Fault Refusal := .next (s.deliver (.record Record.noEvent))

/-- A received data byte (R183): appended, or at a full buffer dropped with the partial frame. -/
def acceptData (b : Byte) (s : State) : Host.Outcome State Fault Refusal :=
  if s.rxlen = s.rxCap then .next (s.endFrame Record.overflow)
  else
    match memWrite s s.rxlen b with
    | .error f => .fault f
    | .ok t => .next ((t.setRxlen (s.rxlen + 1)).deliver (.record Record.noEvent))

/-- A received terminator (R184): the raw frame goes to the decoder and the buffer is cleared whatever the outcome. -/
def acceptEnd (s : State) : Host.Outcome State Fault Refusal :=
  match rawFrame s with
  | .error f => .fault f
  | .ok f => .next (s.endFrame (decodeFrame f s.reqid))

/-- `RX.BYTE b` (R181). -/
def execRxByte (b : Byte) (s : State) : Host.Outcome State Fault Refusal :=
  if b = rxStart then acceptStart s else if b = frameEnd then acceptEnd s else acceptData b s

/-- `RXB.START` (R182). -/
def execRxbStart (s : State) : Host.Outcome State Fault Refusal := acceptStart s

/-- `RXB.END` (R184). -/
def execRxbEnd (s : State) : Host.Outcome State Fault Refusal := acceptEnd s

/-- `RXB.DATA` (R183). -/
def execRxbData (b : Byte) (s : State) : Host.Outcome State Fault Refusal := acceptData b s

end Sys2Proof.Machine
end

