-- ==== Sys2Proof/Machine/Tx.lean ====
section
/-! DEFINITION. The transmit encoder (42_tx_encode.md) and the meaning of TX.REQ. -/

namespace Sys2Proof.Machine

/-- `build_request(id)` (R140). -/
def buildRequest (id : Word16) : List Byte := reqHdr ++ [hi id, lo id]

/-- The CRC of a message for transmission: `crc16(m ++ [0x00, 0x00])` (40_crc.md R109). -/
def txCrc (m : List Byte) : Word16 := crc16 (m ++ [0x00, 0x00])

/-- `append_crc(m)` (R141): high byte first. -/
def appendCrc (m : List Byte) : List Byte := m ++ [hi (txCrc m), lo (txCrc m)]

/-- `frame_wrap(e)` (R143). -/
def frameWrap (e : List Byte) : List Byte := [txStart] ++ e ++ [frameEnd]

/-- `encode_request(id)` (R144): build, checksum, escape the whole payload (R142), wrap. -/
def encodeRequest (id : Word16) : List Byte := frameWrap (escapeSeq (appendCrc (buildRequest id)))

/-- `TX.REQ id` (R146). -/
def execTxReq (id : Word16) (s : State) : Host.Outcome State Fault Refusal :=
  .next (((s.emit (encodeRequest id)).setReqid id).deliver .nothing)

end Sys2Proof.Machine
end

