-- ==== Sys2Proof/Machine/Dispatch.lean ====
section
/-! DEFINITION. The dispatch: one arm per row of the opcode table. -/

namespace Sys2Proof.Machine

/-- The effect of an instruction. -/
def exec (i : Instr) (s : State) : Host.Outcome State Fault Refusal :=
  match i with
  | .crcClr => Sys2Proof.Machine.execCrcClr s
  | .crcUpd b => Sys2Proof.Machine.execCrcUpd b s
  | .crcRd => Sys2Proof.Machine.execCrcRd s
  | .txReq id => Sys2Proof.Machine.execTxReq id s
  | .rxByte b => Sys2Proof.Machine.execRxByte b s
  | .rxbStart => Sys2Proof.Machine.execRxbStart s
  | .rxbEnd => Sys2Proof.Machine.execRxbEnd s
  | .rxbData b => Sys2Proof.Machine.execRxbData b s
  | .txbEsc06 => Sys2Proof.Machine.execTxbEsc06 s
  | .txbEsc0D => Sys2Proof.Machine.execTxbEsc0D s
  | .txbEsc1B => Sys2Proof.Machine.execTxbEsc1B s
  | .txbEsc40 => Sys2Proof.Machine.execTxbEsc40 s
  | .txbEsc80 => Sys2Proof.Machine.execTxbEsc80 s
  | .txbLit b => Sys2Proof.Machine.execTxbLit b s
  | .debEsc next => Sys2Proof.Machine.execDebEsc next s
  | .debLit b => Sys2Proof.Machine.execDebLit b s

end Sys2Proof.Machine
end

