-- ==== Sys2Proof/Machine/Step.lean ====
section
/-! DEFINITION. One step: the block takes the oldest input of the host's queue. -/

namespace Sys2Proof.Machine

/-- The invocation of a command word: its operation runs; an ill-formed word is refused with no effect (30_encoding.md R74). A command
word decodes to one of the five operations only (00_scope.md R7). -/
def invoke (w : CmdWord) (s : State) : Host.Outcome State Fault Refusal :=
  match decode (.cmd w) with
  | .instr i => exec i s
  | .illegal _ => .next s.refuse

/-- A step. With nothing presented "nothing changes" (00_scope.md R6); a reset event resets (70_reset_and_hazards.md R230); an
invocation runs to completion on the state the one before it left (20_memory.md R49). -/
def step (s : State) : Host.Outcome State Fault Refusal :=
  match s.pending with
  | [] => .next s
  | .reset :: rest => .next { s with pending := rest }.resetEvent
  | .cmd w :: rest => invoke w { s with pending := rest }

/-- The state whose next step runs a table word's unit (log entries 3 and 6). A word that is no unit is not placed. -/
def State.withFetchWord (s : State) (nbits w : Nat) : State :=
  match codeOfTableWord nbits w with
  | none => s
  | some c => s.presentUnit c

end Sys2Proof.Machine
end

