-- ==== Sys2Proof/Machine/Value.lean ====
section
/-! DEFINITION. The reading the fields of an accepted response stand for (43_decode_verify.md R170). No operation computes it: the
block delivers the fields, and the conversion to a floating-point number is the host's (00_scope.md R4). -/

namespace Sys2Proof.Machine

/-- `(-1)^valneg * mant`. -/
def Fields.signedMant (f : Fields) : Int := if f.valneg then -(f.mant : Int) else f.mant

/-- `value(fields)`, the exact rational (R170): "`mant * 10^expmag` or `mant / 10^expmag`, negated when `valneg = 1`". -/
def Fields.value (f : Fields) : Rat :=
  if f.expneg then mkRat f.signedMant (10 ^ f.expmag) else mkRat (f.signedMant * 10 ^ f.expmag) 1

end Sys2Proof.Machine
end

