-- ==== Sys2Proof/Machine/Pseudo.lean ====
section
/-! DEFINITION. The pseudo-operations (30_encoding.md R80): abbreviations for sequences of operations, and what it is to invoke a
sequence. They have no encoding (R81). -/

namespace Sys2Proof.Machine

/-- Instructions one after another, each on the state the one before it left (20_memory.md R49). -/
def runInstrs : List Instr → State → Host.Outcome State Fault Refusal
  | [], s => .next s
  | i :: is, s =>
    match exec i s with
    | .next t => runInstrs is t
    | .fault f => .fault f
    | .refused r => .refused r

/-- `CRC.RUN s` (40_crc.md R108): "`CRC.CLR`, then `CRC.UPD s[k]` for `k = 0 .. len(s)-1`, then `CRC.RD`". -/
def crcRun (s : List Byte) : List Instr := .crcClr :: (s.map .crcUpd ++ [.crcRd])

/-- `RX.FEED s` (44_rx_accumulator.md R188): RX.BYTE of every byte in order. -/
def rxFeed (s : List Byte) : List Instr := s.map .rxByte

/-- The records among results whose status is not `NONE`, in order (R188). -/
def eventsOf (rs : List Result) : List Record := rs.filterMap Result.event

/-- The state with command words at the end of the host's queue. -/
def State.present (s : State) (ws : List CmdWord) : State := { s with pending := s.pending ++ ws.map .cmd }

end Sys2Proof.Machine
end

