-- ==== Sys2Proof/Safety.lean ====
section
/-! DEFINITION. What counts as a safe state, in the terms claims use: the invariants of 10_state.md R25 and 44_rx_accumulator.md R186
and the canonical form of the buffer's cells; and the accumulator's frame as a plain sequence, the terms of R186's last line. -/

namespace Sys2Proof.Machine

/-- A cell holds a byte the accumulator appends: neither the start marker nor the terminator (R186). -/
def dataCell : Option Byte → Bool
  | some b => b != rxStart && b != frameEnd
  | none => false

/-- The invariant: the capacity is at least 1 (00_scope.md R5); `rxlen <= RX_CAP` (R25); the cells are canonical and exist (20_memory.md
R43); every cell below `rxlen` holds a data byte (R186). -/
structure State.Inv (s : State) : Prop where
  cap_pos : 1 ≤ s.rxCap
  len_le : s.rxlen ≤ s.rxCap
  cells_wf : Memory.wf s.rxbuf = true
  cells_lt : ∀ c ∈ s.rxbuf, c.1 < s.rxCap
  data : ∀ i < s.rxlen, dataCell (Memory.read s.rxbuf i) = true

/-- The accumulated bytes `acc` after one more byte of the wire, and the record RX.BYTE returns for it (R181), over a plain sequence. -/
def accStep (cap : Nat) (q : Option Word16) (acc : List Byte) (b : Byte) : List Byte × Record :=
  if b = 0x40 then (acc, Record.noEvent)
  else if b = 0x0d then ([], decodeFrame acc q)
  else if acc.length = cap then ([], Record.overflow)
  else (acc ++ [b], Record.noEvent)

/-- The accumulated bytes and the records of a whole wire stream. -/
def accRun (cap : Nat) (q : Option Word16) : List Byte → List Byte → List Byte × List Record
  | acc, [] => (acc, [])
  | acc, b :: bs =>
    ((accRun cap q (accStep cap q acc b).1 bs).1, (accStep cap q acc b).2 :: (accRun cap q (accStep cap q acc b).1 bs).2)

/-- The units the de-escaper's scan of a frame meets (30_encoding.md R68, 41_escape.md R123): a prefix and the byte after it are one
unit, any other byte is one of its own. -/
def debUnits : List Byte → List Code
  | [] => []
  | [b] => [.deb b none]
  | b :: n :: f => .deb b (some n) :: (if b = 0x1b then debUnits f else debUnits (n :: f))

/-- What an instruction does to the `crc` register, by its name alone (10_state.md R20, R21): only CRC.CLR and CRC.UPD write it. -/
def crcEffect (c : Word16) : Instr → Word16
  | .crcClr => 0x0000
  | .crcUpd b => crcByte c b
  | .crcRd => c
  | .txReq _ => c
  | .rxByte _ => c
  | .rxbStart => c
  | .rxbEnd => c
  | .rxbData _ => c
  | .txbEsc06 => c
  | .txbEsc0D => c
  | .txbEsc1B => c
  | .txbEsc40 => c
  | .txbEsc80 => c
  | .txbLit _ => c
  | .debEsc _ => c
  | .debLit _ => c

/-- What an instruction emits, by its name alone (R28): only TX.REQ emits, one whole frame. -/
def emitted : Instr → List Byte
  | .crcClr => []
  | .crcUpd _ => []
  | .crcRd => []
  | .txReq id => encodeRequest id
  | .rxByte _ => []
  | .rxbStart => []
  | .rxbEnd => []
  | .rxbData _ => []
  | .txbEsc06 => []
  | .txbEsc0D => []
  | .txbEsc1B => []
  | .txbEsc40 => []
  | .txbEsc80 => []
  | .txbLit _ => []
  | .debEsc _ => []
  | .debLit _ => []

/-- The byte an instruction of the receive accumulator takes (R66), if it is one. -/
def receivedByte : Instr → Option Byte
  | .crcClr => none
  | .crcUpd _ => none
  | .crcRd => none
  | .txReq _ => none
  | .rxByte b => some b
  | .rxbStart => some 0x40
  | .rxbEnd => some 0x0d
  | .rxbData b => some b
  | .txbEsc06 => none
  | .txbEsc0D => none
  | .txbEsc1B => none
  | .txbEsc40 => none
  | .txbEsc80 => none
  | .txbLit _ => none
  | .debEsc _ => none
  | .debLit _ => none

/-- A byte sequence with bit `j` of byte `k` inverted (40_crc.md R104 (f)). -/
def flipBit (p : List Byte) (k j : Nat) : List Byte := p.modify k fun b => b ^^^ (1#8 <<< j)

/-- A response payload (30_encoding.md R62): header, echoed id, unit code, mantissa length, exponent byte, mantissa, CRC. -/
def responsePayload (id : Word16) (unit e : Byte) (mant : List Byte) : List Byte :=
  appendCrc ([0x3f, 0x10, hi id, lo id, unit, BitVec.ofNat 8 mant.length, e] ++ mant)

/-- The record of a good response (43_decode_verify.md R171). -/
def goodRecord (unit e : Byte) (mant : List Byte) : Record where
  status := .frameOk
  warn := 0
  fields := some
    { unit := unit, len := mant.length, expmag := e.toNat % 64, expneg := e.getLsbD 6, valneg := e.getLsbD 7, mant := be mant }

end Sys2Proof.Machine
end

