-- ==== Sys2Proof/Certificates/Slice0/Obligations.lean ====
section
/-! DEFINITION. The statements for the provers. Every result an operation returns is read off the model's result stream (log entry 2):
`t.results = s.results ++ [r]` says that the operation returned `r`. -/

open Sys2Proof Sys2Proof.Machine

/-! ### Encodings -/

/-- 30_encoding.md section 3 (the command word is the spec's decision D3): a word selects the row with `w & mask == match`; its
operand is `arg[7:0]` or `arg[15:0]`; a word that matches no row is illegal. -/
def Obligations.CommandWordSelectsRowByMatchAndMask : Prop :=
  ∀ w : CmdWord,
    (decode (.cmd w) = .instr .crcClr ↔ w &&& 0xfffff = 0x10000) ∧
    (∀ b, decode (.cmd w) = .instr (.crcUpd b) ↔ w &&& 0xfff00 = 0x20000 ∧ b = w.extractLsb' 0 8) ∧
    (decode (.cmd w) = .instr .crcRd ↔ w &&& 0xfffff = 0x30000) ∧
    (∀ id, decode (.cmd w) = .instr (.txReq id) ↔ w &&& 0xf0000 = 0x40000 ∧ id = w.extractLsb' 0 16) ∧
    (∀ b, decode (.cmd w) = .instr (.rxByte b) ↔ w &&& 0xfff00 = 0x50000 ∧ b = w.extractLsb' 0 8) ∧
    ((∃ e, decode (.cmd w) = .illegal e) ↔
      w &&& 0xfffff ≠ 0x10000 ∧ w &&& 0xfff00 ≠ 0x20000 ∧ w &&& 0xfffff ≠ 0x30000 ∧ w &&& 0xf0000 ≠ 0x40000 ∧
        w &&& 0xfff00 ≠ 0x50000)

/-- Decode of encode: no bit of an operand is lost, for every well-formed instruction (30_encoding.md sections 2 and 3). -/
def Obligations.DecodeOfEncodeIsTheInstruction : Prop :=
  ∀ i : Instr, i.wf = true → decode (encode i) = .instr i

/-- Encode of decode: a legal command word, a received byte and a payload byte are the unit of exactly the instruction they decode
to, and that instruction is well formed; of a raw-frame unit the same holds where no byte follows a literal. -/
def Obligations.EncodeOfDecodeIsTheUnit : Prop :=
  (∀ c i, decode c = .instr i → i.wf = true) ∧
  (∀ w i, decode (.cmd w) = .instr i → encode i = .cmd w) ∧
  (∀ b i, decode (.rxb b) = .instr i → encode i = .rxb b) ∧
  (∀ b i, decode (.txb b) = .instr i → encode i = .txb b) ∧
  (∀ b next i, decode (.deb b next) = .instr i → encode i = .deb b (if b = 0x1b then next else none))

/-- Words written out from 30_encoding.md sections 2 and 3 and 95_test_vectors.md section 2.6. -/
def Obligations.SpecWordsDecodeToTheirRows : Prop :=
  decode (.cmd 0x10000) = .instr .crcClr ∧ decode (.cmd 0x2003f) = .instr (.crcUpd 0x3f) ∧
  decode (.cmd 0x30000) = .instr .crcRd ∧ decode (.cmd 0x4003c) = .instr (.txReq 0x003c) ∧
  decode (.cmd 0x5000d) = .instr (.rxByte 0x0d) ∧ decode (.cmd 0x00000) = .illegal (.unassignedOp 0x0) ∧
  decode (.cmd 0x10001) = .illegal (.argNotZero 0x1 0x0001) ∧ decode (.cmd 0x20100) = .illegal (.argHighNotZero 0x2 0x0100) ∧
  decode (.rxb 0x40) = .instr .rxbStart ∧ decode (.rxb 0x0d) = .instr .rxbEnd ∧ decode (.rxb 0x1b) = .instr (.rxbData 0x1b) ∧
  decode (.txb 0x1b) = .instr .txbEsc1B ∧ decode (.txb 0x3c) = .instr (.txbLit 0x3c) ∧
  decode (.deb 0x1b (some 0xf2)) = .instr (.debEsc (some 0xf2)) ∧ decode (.deb 0x0d none) = .instr (.debLit 0x0d)

/-! ### The step -/

/-- What a step does with the oldest input (log entry 3): a command word that decodes runs its instruction on the state without that
input; an ill-formed one only returns `ILLEGAL_OP`; with nothing presented nothing changes. A command word decodes to one of exactly
five operations (00_scope.md section 4), so no step runs a byte-class row on its own. -/
def Obligations.StepRunsTheDecodedInstruction : Prop :=
  (∀ s w rest i, s.pending = .cmd w :: rest → decode (.cmd w) = .instr i → step s = exec i { s with pending := rest }) ∧
  (∀ s w rest e, s.pending = .cmd w :: rest → decode (.cmd w) = .illegal e →
    step s = .next { s with pending := rest, results := s.results ++ [.status .illegalOp] }) ∧
  (∀ s, s.pending = [] → step s = .next s) ∧
  (∀ w i, decode (.cmd w) = .instr i →
    i = .crcClr ∨ (∃ b, i = .crcUpd b) ∨ i = .crcRd ∨ (∃ id, i = .txReq id) ∨ (∃ b, i = .rxByte b))

/-- 30_encoding.md section 3 (decision D4 of the spec): a presented command word that matches no row is refused: no state changes,
nothing is emitted, the result is `ILLEGAL_OP`. -/
def Obligations.IllegalCommandWordHasNoEffect : Prop :=
  ∀ s w rest, s.pending = .cmd w :: rest →
    w &&& 0xfffff ≠ 0x10000 → w &&& 0xfff00 ≠ 0x20000 → w &&& 0xfffff ≠ 0x30000 → w &&& 0xf0000 ≠ 0x40000 →
    w &&& 0xfff00 ≠ 0x50000 →
    step s = .next { s with pending := rest, results := s.results ++ [.status .illegalOp] }

/-- 10_state.md section 5 (decision D17 of the spec): after the reset event `crc = 0x0000`, `reqid = none`, `rxlen = 0`, nothing has
been emitted. What becomes of the result stream, the queue, the capacity and the cells is the model's choice (log entries 1 to 4
and 7). -/
def Obligations.ResetEventPutsResetValues : Prop :=
  (∀ s rest, s.pending = .reset :: rest →
    ∃ t, step s = .next t ∧ t.crc = 0x0000 ∧ t.reqid = none ∧ t.rxlen = 0 ∧ t.tx = [] ∧
      t.results = [] ∧ t.rxbuf = [] ∧ t.rxCap = s.rxCap ∧ t.pending = rest) ∧
  State.reset.crc = 0x0000 ∧ State.reset.reqid = none ∧ State.reset.rxlen = 0 ∧ State.reset.tx = [] ∧ 1 ≤ State.reset.rxCap

/-- Operations take effect one after another in the order the host presents them (20_memory.md section 3): stepping through presented
command words is running the operations they decode to. -/
def Obligations.PresentedSequenceRunsInOrder : Prop :=
  ∀ (ws : List CmdWord) (is : List Instr) (s : State), ws.map (fun w => decode (.cmd w)) = is.map .instr → s.pending = [] →
    Host.Core.run Sys2Proof.core ws.length (s.present ws) = runInstrs is s

/-! ### What each operation does -/

/-- 40_crc.md section 2 (decision D6 of the spec): CRC.CLR writes zero, CRC.UPD shifts the byte in, CRC.RD returns the register, and
nothing else changes: no register, no cell, no byte of the transmit stream. -/
def Obligations.CrcOperationsCompleteAndChangeOnlyCrc : Prop :=
  (∀ s, exec .crcClr s = .next { s with crc := 0x0000, results := s.results ++ [.nothing] }) ∧
  (∀ b s, exec (.crcUpd b) s = .next { s with crc := crcByte s.crc b, results := s.results ++ [.nothing] }) ∧
  (∀ s, exec .crcRd s = .next { s with results := s.results ++ [.word s.crc] })

/-- TX.REQ (42_tx_encode.md): every id is legal in its command word; it emits `encode_request(id)`, latches the id, returns
nothing. `crc`, `rxbuf` and `rxlen` are not touched: that a partial frame stays is the spec's decision D10, that `crc` stays its
decision D6. -/
def Obligations.TxReqEmitsOneFrameAndLatchesId : Prop :=
  ∀ id s, decode (.cmd (0x4#4 ++ id)) = .instr (.txReq id) ∧
    exec (.txReq id) s =
      .next { s with tx := s.tx ++ encodeRequest id, reqid := some id, results := s.results ++ [.nothing] }

/-- A start marker (44_rx_accumulator.md) "changes nothing at all", by RX.BYTE and by the row RXB.START, in every state: the
result is `(NONE, 0)` (the spec's decision D27). The byte `0x80` is not a start marker: it is data. That the buffer is not cleared is
the spec's decision D9. -/
def Obligations.StartMarkerIsDiscarded : Prop :=
  ∀ s, exec (.rxByte 0x80) s = exec (.rxbData 0x80) s ∧
    exec (.rxByte 0x40) s = .next { s with results := s.results ++ [.record ⟨.noEvent, 0, none⟩] } ∧
    exec .rxbStart s = .next { s with results := s.results ++ [.record ⟨.noEvent, 0, none⟩] }

/-- A data byte below the capacity (R183, R45), by RX.BYTE and by the row RXB.DATA: it is stored at `rxbuf[rxlen]`, `rxlen` grows by
one, every other cell and every other register stays, the result is `(NONE, 0)`. -/
def Obligations.DataByteIsAppendedBelowCapacity : Prop :=
  ∀ b s, b ≠ 0x40 → b ≠ 0x0d → s.rxlen < s.rxCap →
    ∃ t, exec (.rxByte b) s = .next t ∧ exec (.rxbData b) s = .next t ∧
      Memory.read t.rxbuf s.rxlen = some b ∧ (∀ a, a ≠ s.rxlen → Memory.read t.rxbuf a = Memory.read s.rxbuf a) ∧
      t.rxlen = s.rxlen + 1 ∧ t.crc = s.crc ∧ t.reqid = s.reqid ∧ t.tx = s.tx ∧ t.rxCap = s.rxCap ∧ t.pending = s.pending ∧
      t.results = s.results ++ [.record ⟨.noEvent, 0, none⟩]

/-- A data byte at a full buffer (44_rx_accumulator.md), by RX.BYTE and by the row RXB.DATA (log entry 5): the buffer is cleared, the
byte is dropped, the result is `(OVERFLOW, 0)`, nothing else changes. That this happens at `rxlen == RX_CAP` and that the byte is
dropped is the spec's decision D8. -/
def Obligations.DataByteAtFullBufferOverflows : Prop :=
  ∀ b s, b ≠ 0x40 → b ≠ 0x0d → s.rxlen = s.rxCap →
    exec (.rxByte b) s = .next { s with rxlen := 0, results := s.results ++ [.record ⟨.overflow, 0, none⟩] } ∧
    exec (.rxbData b) s = .next { s with rxlen := 0, results := s.results ++ [.record ⟨.overflow, 0, none⟩] }

/-- The terminator (R184), by RX.BYTE and by the row RXB.END: the bytes `rxbuf[0 .. rxlen)` go to the decoder with `reqid`, the record
is the result, the buffer is cleared whatever the outcome, nothing else changes. It never overflows, and with `rxlen = 0` it hands
over the empty frame, which gives `FORMAT_ERR`. -/
def Obligations.TerminatorHandsFrameToDecoderAndClears : Prop :=
  ∀ s, s.rxlen ≤ s.rxCap → (∀ i < s.rxlen, (Memory.read s.rxbuf i).isSome = true) →
    ∃ f : List Byte, f.length = s.rxlen ∧ (∀ i < s.rxlen, f[i]? = Memory.read s.rxbuf i) ∧
      exec (.rxByte 0x0d) s =
        .next { s with rxlen := 0, results := s.results ++ [.record (decodeFrame f s.reqid)] } ∧
      exec .rxbEnd s = .next { s with rxlen := 0, results := s.results ++ [.record (decodeFrame f s.reqid)] } ∧
      (s.rxlen = 0 → decodeFrame f s.reqid = ⟨.formatErr, 0, none⟩)

/-- The escaper's rows (30_encoding.md section 2): each of the five reserved bytes has its row and gives `[0x1b, b ^ 0xff]`, any other
byte is its own image. That a row, as an instruction, delivers the image as its result and changes nothing else is the model's
choice (log entry 8). -/
def Obligations.EscaperRowsOutputTheWireImage : Prop :=
  (∀ s, exec .txbEsc06 s = .next { s with results := s.results ++ [.image [0x1b, 0xf9]] }) ∧
  (∀ s, exec .txbEsc0D s = .next { s with results := s.results ++ [.image [0x1b, 0xf2]] }) ∧
  (∀ s, exec .txbEsc1B s = .next { s with results := s.results ++ [.image [0x1b, 0xe4]] }) ∧
  (∀ s, exec .txbEsc40 s = .next { s with results := s.results ++ [.image [0x1b, 0xbf]] }) ∧
  (∀ s, exec .txbEsc80 s = .next { s with results := s.results ++ [.image [0x1b, 0x7f]] }) ∧
  (∀ b s, exec (.txbLit b) s = .next { s with results := s.results ++ [.image [b]] }) ∧
  (∀ b, decode (.txb b) = .instr (if b = 0x06 then .txbEsc06 else if b = 0x0d then .txbEsc0D else if b = 0x1b then .txbEsc1B
    else if b = 0x40 then .txbEsc40 else if b = 0x80 then .txbEsc80 else .txbLit b)) ∧
  (∀ b, escapeByte b = if b ∈ [0x06, 0x0d, 0x1b, 0x40, 0x80] then [0x1b, b ^^^ 0xff] else [b])

/-- The de-escaper's rows (R68, R126, R127): a prefix with a byte `n` after it gives `n ^ 0xff` and one warning unless that is
reserved; a prefix at the end of the frame gives `FORMAT_ERR`; any other byte is copied. The form of the result is the model's
choice (log entry 8). -/
def Obligations.DeescaperRowsOutputTheDecodedByte : Prop :=
  (∀ n s, exec (.debEsc (some n)) s = .next { s with results := s.results ++
    [.unescaped (n ^^^ 0xff) (if n ^^^ 0xff ∈ [0x06, 0x0d, 0x1b, 0x40, 0x80] then 0 else 1)] }) ∧
  (∀ s, exec (.debEsc none) s = .next { s with results := s.results ++ [.record ⟨.formatErr, 0, none⟩] }) ∧
  (∀ b s, exec (.debLit b) s = .next { s with results := s.results ++ [.unescaped b 0] }) ∧
  (∀ b next, decode (.deb b next) = .instr (if b = 0x1b then .debEsc next else .debLit b))

/-- RX.BYTE is its byte's class (R66): the accumulator classifies each byte into exactly one class and does what that class does. -/
def Obligations.RxByteRunsTheClassOfItsByte : Prop :=
  ∀ b, ∃ i, decode (.rxb b) = .instr i ∧ (∀ s, exec (.rxByte b) s = exec i s) ∧
    (b = 0x40 ↔ i = .rxbStart) ∧ (b = 0x0d ↔ i = .rxbEnd) ∧ (b ≠ 0x40 ∧ b ≠ 0x0d ↔ i = .rxbData b)

/-- The model's own stops (log entry 9; 20_memory.md section 2), by RX.BYTE and by the RXB rows (log entry 5): a data byte with `rxlen`
above the capacity would store to a cell that does not exist, and a terminator stops at the first cell below `rxlen` that does not
exist or holds no value. No instruction stops anywhere else: a fault names a cell at or below `rxlen` that does not exist, or a cell
below `rxlen` that holds no value; nothing is refused. No reachable state is such a state. -/
def Obligations.AccumulatorStopsWhereNoCellExists : Prop :=
  (∀ b s, b ≠ 0x40 → b ≠ 0x0d → s.rxCap < s.rxlen →
    exec (.rxByte b) s = .fault (.noSuchCell s.rxlen) ∧ exec (.rxbData b) s = .fault (.noSuchCell s.rxlen)) ∧
  (∀ s k, k < s.rxlen → (∀ a < k, a < s.rxCap ∧ (Memory.read s.rxbuf a).isSome = true) → s.rxCap ≤ k →
    exec (.rxByte 0x0d) s = .fault (.noSuchCell k) ∧ exec .rxbEnd s = .fault (.noSuchCell k)) ∧
  (∀ s k, k < s.rxlen → (∀ a < k, a < s.rxCap ∧ (Memory.read s.rxbuf a).isSome = true) → k < s.rxCap →
    Memory.read s.rxbuf k = none →
    exec (.rxByte 0x0d) s = .fault (.unwrittenCell k) ∧ exec .rxbEnd s = .fault (.unwrittenCell k)) ∧
  (∀ i s f, exec i s = .fault f → ∃ k ≤ s.rxlen,
    (f = .noSuchCell k ∧ s.rxCap ≤ k) ∨ (f = .unwrittenCell k ∧ k < s.rxlen ∧ Memory.read s.rxbuf k = none)) ∧
  (∀ i s r, exec i s ≠ .refused r)

/-! ### The whole machine -/

/-- The invariant holds right after reset. -/
def Obligations.InvariantHoldsAtReset : Prop := State.Inv State.reset

/-- Every step keeps the invariant: `0 <= rxlen <= RX_CAP` (10_state.md section 2), canonical cells, and no start marker and no
terminator among the accumulated bytes (44_rx_accumulator.md, the invariants the spec marks as derived). -/
def Obligations.StepKeepsTheInvariant : Prop :=
  ∀ s t, s.Inv → step s = .next t → t.Inv

/-- No instruction stops in a state that meets the invariant (60_exceptions.md section 2: "No operation can hang, block, or fail to
complete"). -/
def Obligations.EveryInstructionCompletes : Prop :=
  ∀ i s, s.Inv → ∃ t, exec i s = .next t

/-- No sequence of inputs makes the block stuck (70_reset_and_hazards.md section 3): every number of steps ends in a state that meets
the invariant. -/
def Obligations.NoSequenceMakesTheBlockStuck : Prop :=
  ∀ n s, s.Inv → ∃ t, Host.Core.run Sys2Proof.core n s = .next t ∧ State.Inv t

/-- The "written by" column of 10_state.md section 1 and the frame of every instruction: `crc` only by CRC.CLR and CRC.UPD, `reqid`
and the transmit stream only by TX.REQ, a cell of `rxbuf` only by a data byte below the capacity and only at `rxlen`, `rxlen` only by
a received byte other than the start marker; the capacity and the queue by none; one result for each. That the TXB and DEB rows, as
instructions, write nothing but their result is the model's choice (log entry 8). -/
def Obligations.EachElementHasOnlyItsWriters : Prop :=
  ∀ i s t, i.wf = true → exec i s = .next t →
    t.crc = crcEffect s.crc i ∧
    t.tx = s.tx ++ emitted i ∧
    (∀ id, i = .txReq id → t.reqid = some id) ∧ ((∀ id, i ≠ .txReq id) → t.reqid = s.reqid) ∧
    (receivedByte i = none ∨ receivedByte i = some 0x40 →
      t.rxlen = s.rxlen ∧ ∀ a, Memory.read t.rxbuf a = Memory.read s.rxbuf a) ∧
    (receivedByte i = some 0x0d ∨ s.rxlen = s.rxCap → ∀ a, Memory.read t.rxbuf a = Memory.read s.rxbuf a) ∧
    (∀ a, a ≠ s.rxlen → Memory.read t.rxbuf a = Memory.read s.rxbuf a) ∧
    t.rxCap = s.rxCap ∧ t.pending = s.pending ∧ ∃ r, t.results = s.results ++ [r]

/-- `crc` after any sequence of operations is what its CRC.CLR and CRC.UPD alone make of it: TX.REQ and RX.BYTE between them do not
disturb it (10_state.md section 2, 70_reset_and_hazards.md section 4). -/
def Obligations.CrcDependsOnCrcOperationsOnly : Prop :=
  ∀ is s t, runInstrs is s = .next t → t.crc = is.foldl crcEffect s.crc

/-- The transmit stream holds the frames of the TX.REQ operations in their order, each contiguous (20_memory.md section 3). -/
def Obligations.TransmitStreamIsFramesInOrder : Prop :=
  ∀ is s t, runInstrs is s = .next t → t.tx = s.tx ++ is.flatMap emitted

/-- The "read by" column of 10_state.md section 1: what the receive side does depends on neither `crc`, nor the transmit stream, nor
any earlier result. -/
def Obligations.ReceiveSideDoesNotReadCrcOrStreams : Prop :=
  ∀ b s c bs rs,
    exec (.rxByte b) { s with crc := c, tx := bs, results := rs } =
      match exec (.rxByte b) s with
      | .next t => .next { t with crc := c, tx := bs, results := rs ++ t.results.drop s.results.length }
      | .fault f => .fault f
      | .refused r => .refused r

/-- Bytes at indices `rxlen` and above are never read by any operation (10_state.md section 2): two states that differ only there
stop alike or return the same result and agree again on the cells below `rxlen`. -/
def Obligations.CellsAboveRxlenAreNeverRead : Prop :=
  ∀ i s cells, (∀ a < s.rxlen, Memory.read cells a = Memory.read s.rxbuf a) →
    match exec i s with
    | .next t => ∃ cells', exec i { s with rxbuf := cells } = .next { t with rxbuf := cells' } ∧
        ∀ a < t.rxlen, Memory.read cells' a = Memory.read t.rxbuf a
    | .fault f => exec i { s with rxbuf := cells } = .fault f
    | .refused r => exec i { s with rxbuf := cells } = .refused r

/-- The only operations that clear a non-empty buffer are a terminator and a data byte, neither the start marker nor the terminator,
at the capacity (44_rx_accumulator.md, decision D10 of the spec), and a result other than `(NONE, 0)` of a received byte leaves the
buffer empty. -/
def Obligations.OnlyTerminatorOrOverflowClears : Prop :=
  ∀ i s t, i.wf = true → exec i s = .next t →
    (s.rxlen ≠ 0 → t.rxlen = 0 →
      receivedByte i = some 0x0d ∨ (s.rxlen = s.rxCap ∧ ∃ b, receivedByte i = some b ∧ b ≠ 0x40 ∧ b ≠ 0x0d)) ∧
    (∀ b, receivedByte i = some b → t.results ≠ s.results ++ [.record ⟨.noEvent, 0, none⟩] → t.rxlen = 0)

/-! ### The CRC16 Engine -/

/-- The bit step (40_crc.md section 1) on numbers: the bit enters at the low end; `0x1021` is XOR-ed in when a 1 leaves the high
end. -/
def Obligations.BitStepShiftsInAtTheLowEnd : Prop :=
  ∀ (c : Word16) (b : Bool),
    (crcBit c b).toNat =
      if 2 * c.toNat + b.toNat < 2 ^ 16 then 2 * c.toNat + b.toNat else (2 * c.toNat + b.toNat - 2 ^ 16) ^^^ 0x1021

/-- Remainder (40_crc.md section 1, property (a), which rests on the reading of the constant as a generator, the spec's general
knowledge G1): `crc16(s)`, as a polynomial over GF(2), is the polynomial of the message bits, first byte
first and bit 7 of each byte first, modulo `x^16 + x^12 + x^5 + 1`. -/
def Obligations.CrcIsRemainderOfMessagePolynomial : Prop :=
  ∀ s : List Byte,
    (∑ i ∈ Finset.range 16, if (crc16 s).getLsbD i then (Polynomial.X : Polynomial (ZMod 2)) ^ i else 0) =
      ((s.flatMap fun d => (List.range 8).map fun i => d.getLsbD (7 - i)).foldl
        (fun p b => p * Polynomial.X + if b then 1 else 0) 0) %ₘ
        (Polynomial.X ^ 16 + Polynomial.X ^ 12 + Polynomial.X ^ 5 + 1)

/-- Linearity (40_crc.md section 1, property (b)). -/
def Obligations.CrcIsLinear : Prop :=
  ∀ s t : List Byte, s.length = t.length → crc16 (s.zipWith (· ^^^ ·) t) = crc16 s ^^^ crc16 t

/-- Short and zero-led inputs (40_crc.md section 1, property (d)). -/
def Obligations.CrcOfShortAndZeroLedInputs : Prop :=
  crc16 [] = 0x0000 ∧ (∀ a : Byte, crc16 [a] = a.setWidth 16) ∧ (∀ a b : Byte, crc16 [a, b] = be16 a b) ∧
  (∀ n s, crc16 (List.replicate n 0x00 ++ s) = crc16 s)

/-- `append_crc(m)` (R141): `m` followed by the two bytes, high byte first, of the CRC over `m` and two zero bytes; and the whole then
has residue zero, for every `m`. -/
def Obligations.MessageWithItsCrcHasZeroResidue : Prop :=
  ∀ m : List Byte, appendCrc m = m ++ [hi (crc16 (m ++ [0x00, 0x00])), lo (crc16 (m ++ [0x00, 0x00]))] ∧
    crc16 (appendCrc m) = 0x0000

/-- Error detection (40_crc.md section 1, property (f)): any single-bit error, and any error confined to the last 16 bits, gives a
residue that is not zero. -/
def Obligations.CrcDetectsSingleBitAndTailErrors : Prop :=
  (∀ m k j, k < (appendCrc m).length → j < 8 → crc16 (flipBit (appendCrc m) k j) ≠ 0x0000) ∧
  (∀ (m : List Byte) (a b : Byte), m ++ [a, b] ≠ appendCrc m → crc16 (m ++ [a, b]) ≠ 0x0000)

/-- CRC.RUN (40_crc.md section 2): from any state it returns `crc16(s)` and leaves it in `crc`; nothing else changes. -/
def Obligations.CrcRunReturnsCrc16 : Prop :=
  ∀ bs s, runInstrs (crcRun bs) s =
    .next { s with crc := crc16 bs, results := s.results ++ List.replicate (bs.length + 1) .nothing ++ [.word (crc16 bs)] }

/-! ### The escape codec -/

/-- Round trip (41_escape.md): it never fails and never warns. -/
def Obligations.UnescapeOfEscapeIsTheSequence : Prop :=
  ∀ s : List Byte, unescapeSeq (escapeSeq s) = .bytes s 0

/-- An escaped sequence has no raw reserved byte but the prefix, and one byte more for each reserved byte (41_escape.md,
30_encoding.md section 1). -/
def Obligations.EscapedSequenceHasNoRawMarkers : Prop :=
  ∀ s : List Byte,
    (∀ x ∈ escapeSeq s, x ≠ 0x06 ∧ x ≠ 0x0d ∧ x ≠ 0x40 ∧ x ≠ 0x80) ∧
    (escapeSeq s).length = s.length + s.countP isReserved

/-- The de-escape scan (R123), unit by unit from the left: the byte after a prefix is data whatever its value, anomalies are
counted, a dangling prefix fails with the anomalies counted before it; `ceil(len(f) / 2) <= len(d) <= len(f)`. -/
def Obligations.UnescapeScansLeftToRight : Prop :=
  (∀ f, unescapeSeq f = unescapeFrom 0 f) ∧
  (∀ f d w, unescapeSeq f = .bytes d w → d.length ≤ f.length ∧ f.length ≤ 2 * d.length) ∧
  (∀ warn f, unescapeFrom warn f =
    match f with
    | [] => .bytes [] warn
    | b :: f' =>
      if b = 0x1b then
        match f' with
        | [] => .formatErr warn
        | n :: f'' =>
          match unescapeFrom (warn + if n ^^^ 0xff ∈ [0x06, 0x0d, 0x1b, 0x40, 0x80] then 0 else 1) f'' with
          | .bytes d w => .bytes ((n ^^^ 0xff) :: d) w
          | .formatErr w => .formatErr w
      else
        match unescapeFrom warn f' with
        | .bytes d w => .bytes (b :: d) w
        | .formatErr w => .formatErr w)

/-- The one failure of the de-escape (41_escape.md): it fails exactly when the frame is a prefix after bytes that de-escape, with the
anomalies counted in those. -/
def Obligations.UnescapeFailsOnDanglingPrefixOnly : Prop :=
  ∀ f w, unescapeSeq f = .formatErr w ↔ ∃ f' d, f = f' ++ [0x1b] ∧ unescapeSeq f' = .bytes d w

/-- `escape_seq` is the outputs of the escaper's rows in order, and those rows leave the machine's state alone (30_encoding.md
section 2; log entry 8). -/
def Obligations.EscapeSeqIsTheUnitsOutputs : Prop :=
  ∀ bs : List Byte, ∃ is : List Instr, is.map Decoded.instr = bs.map (fun b => decode (.txb b)) ∧
    ∀ s, ∃ images : List (List Byte), images.flatten = escapeSeq bs ∧
      runInstrs is s = .next { s with results := s.results ++ images.map .image }

/-- `unescape_seq` is the outputs of the de-escaper's rows in order, over the units that the scan of the frame meets: the bytes
concatenate to the decoded bytes and the anomalies add up to the warning count; at a dangling prefix the last row gives `FORMAT_ERR`
(30_encoding.md section 2; 41_escape.md, decision D12; log entry 8). -/
def Obligations.UnescapeSeqIsTheUnitsOutputs : Prop :=
  ∀ f : List Byte, ∃ (is : List Instr) (outs : List (Byte × Nat)), is.map Decoded.instr = (debUnits f).map decode ∧
    match unescapeSeq f with
    | .bytes d w => outs.map Prod.fst = d ∧ (outs.map Prod.snd).sum = w ∧
        ∀ s, runInstrs is s = .next { s with results := s.results ++ outs.map fun o => .unescaped o.1 o.2 }
    | .formatErr w => (outs.map Prod.snd).sum = w ∧
        ∀ s, runInstrs is s = .next
          { s with results := s.results ++ (outs.map fun o => .unescaped o.1 o.2) ++ [.record ⟨.formatErr, 0, none⟩] }

/-! ### The transmit encoder -/

/-- The shape of a request frame (42_tx_encode.md, the properties the spec marks as derived): start marker, `3f 10 01`, terminator, no
raw marker inside, 9 to 12 bytes. -/
def Obligations.RequestFrameShape : Prop :=
  ∀ id, ∃ body : List Byte, encodeRequest id = [0x80, 0x3f, 0x10, 0x01] ++ body ++ [0x0d] ∧
    (∀ x ∈ body, x ≠ 0x06 ∧ x ≠ 0x0d ∧ x ≠ 0x40 ∧ x ≠ 0x80) ∧
    9 ≤ (encodeRequest id).length ∧ (encodeRequest id).length ≤ 12

/-- What is inside a request frame (30_encoding.md section 1, 42_tx_encode.md): the seven-byte payload with the CRC over the body and
two zero bytes, escaped as a whole (the spec's decision D19: the CRC bytes too), between the start marker and the terminator; it comes
back with no warning and zero residue. -/
def Obligations.RequestFrameCarriesItsPayload : Prop :=
  ∀ id, ∃ p : List Byte,
    p = [0x3f, 0x10, 0x01, hi id, lo id, hi (crc16 [0x3f, 0x10, 0x01, hi id, lo id, 0x00, 0x00]),
      lo (crc16 [0x3f, 0x10, 0x01, hi id, lo id, 0x00, 0x00])] ∧
    encodeRequest id = [0x80] ++ escapeSeq p ++ [0x0d] ∧ unescapeSeq (escapeSeq p) = .bytes p 0 ∧ crc16 p = 0x0000

/-- Two ids never give the same frame (42_tx_encode.md). -/
def Obligations.RequestFrameIsInjectiveInTheId : Prop :=
  ∀ id id', encodeRequest id = encodeRequest id' → id = id'

/-! ### The decoder and verifier -/

/-- The decoder (R160) as the spec writes it, over positions of the decoded frame: the checks in their order, the first failure ends
it, `warn` goes with every outcome, absent bytes are never read. (Where the length tests stand is the spec's decision D24.) -/
def Obligations.DecodeChecksInOrder : Prop :=
  ∀ f q, decodeFrame f q =
    match unescapeSeq f with
    | .formatErr w => ⟨.formatErr, w, none⟩
    | .bytes d w =>
      if crc16 d ≠ 0x0000 then ⟨.crcErr, w, none⟩
      else if d.length < 4 then ⟨.formatErr, w, none⟩
      else if q = none ∨ d[0]? ≠ some 0x3f ∨ d[1]? ≠ some 0x10 ∨ d[2]? ≠ q.map hi ∨ d[3]? ≠ q.map lo then ⟨.hdrErr, w, none⟩
      else if d.length < 7 then ⟨.formatErr, w, none⟩
      else if 7 + (d.getD 5 0).toNat + 2 > d.length then ⟨.formatErr, w, none⟩
      else ⟨.frameOk, w, some
        { unit := d.getD 4 0, len := (d.getD 5 0).toNat, expmag := ((d.getD 6 0).extractLsb' 0 6).toNat,
          expneg := (d.getD 6 0).getLsbD 6, valneg := (d.getD 6 0).getLsbD 7,
          mant := be ((d.drop 7).take (d.getD 5 0).toNat) }⟩

/-- What acceptance means: fields come with `FRAME_OK` only, and then the de-escaped frame has zero residue, the header of a response
to the id that was requested, and a mantissa of `L` bytes wholly before its last two bytes. -/
def Obligations.OnlyVerifiedFramesAreAccepted : Prop :=
  ∀ f q, ((decodeFrame f q).fields.isSome = true ↔ (decodeFrame f q).status = .frameOk) ∧
    ((decodeFrame f q).status = .frameOk → ∃ id d, q = some id ∧ unescapeSeq f = .bytes d (decodeFrame f q).warn ∧
      crc16 d = 0x0000 ∧ [0x3f, 0x10, hi id, lo id] <+: d ∧
      ∃ unit e mant rest, d.drop 4 = unit :: BitVec.ofNat 8 mant.length :: e :: (mant ++ rest) ∧ 2 ≤ rest.length ∧
        mant.length < 256 ∧
        (decodeFrame f q).fields = some ⟨unit, mant.length, e.toNat % 64, e.getLsbD 6, e.getLsbD 7, be mant⟩)

/-- The round trip of a response (43_decode_verify.md, the spec's properties): a well-formed response to the requested id is accepted
with exactly its fields. -/
def Obligations.GoodResponseIsAccepted : Prop :=
  ∀ id unit e (mant : List Byte), mant.length < 256 →
    decodeFrame (escapeSeq (responsePayload id unit e mant)) (some id) = goodRecord unit e mant

/-- A response with any single bit of its payload inverted before escaping is rejected with `CRC_ERR` (43_decode_verify.md). -/
def Obligations.CorruptedResponseIsCrcErr : Prop :=
  ∀ id q unit e (mant : List Byte) k j, mant.length < 256 → k < (responsePayload id unit e mant).length → j < 8 →
    decodeFrame (escapeSeq (flipBit (responsePayload id unit e mant) k j)) q = ⟨.crcErr, 0, none⟩

/-- A response to another request, or to none, is `HDR_ERR` (70_reset_and_hazards.md section 4, late or foreign response). -/
def Obligations.ForeignResponseIsHdrErr : Prop :=
  ∀ id q unit e (mant : List Byte), mant.length < 256 → q ≠ some id →
    decodeFrame (escapeSeq (responsePayload id unit e mant)) q = ⟨.hdrErr, 0, none⟩

/-- A stray zero byte in front of an accepted frame turns it into `HDR_ERR`, not `CRC_ERR` (70_reset_and_hazards.md section 4, weak
spots of the integrity check). -/
def Obligations.LeadingZeroByteIsHdrErr : Prop :=
  ∀ f q, (decodeFrame f q).status = .frameOk → decodeFrame (0x00 :: f) q = ⟨.hdrErr, (decodeFrame f q).warn, none⟩

/-- A request is never accepted as a response (43_decode_verify.md, the spec's properties): its payload gives `HDR_ERR`, for the one
id `0x0101` `FORMAT_ERR`; behind its own `0x80` start marker it gives `CRC_ERR` for every id. -/
def Obligations.RequestIsNeverAResponse : Prop :=
  ∀ id, decodeFrame (escapeSeq (appendCrc (buildRequest id))) (some id) =
      (if id = 0x0101 then ⟨.formatErr, 0, none⟩ else ⟨.hdrErr, 0, none⟩) ∧
    ∀ q, decodeFrame (0x80 :: escapeSeq (appendCrc (buildRequest id))) q = ⟨.crcErr, 0, none⟩

/-- The exponent byte (R64) on numbers: bits 5:0, bit 6 (`0x40`), bit 7 (`0x80`). -/
def Obligations.ExponentByteFields : Prop :=
  ∀ e : Byte, expMag e = e.toNat % 64 ∧ expMag e ≤ 63 ∧ (expNeg e = true ↔ e &&& 0x40 ≠ 0) ∧ (valNeg e = true ↔ e &&& 0x80 ≠ 0)

/-- The mantissa (R9, R166): `be([]) = 0`, `be(s ++ [b]) = be(s) * 256 + b`, below `256^L`; leading zero bytes change nothing. -/
def Obligations.MantissaIsBigEndian : Prop :=
  be [] = 0 ∧ (∀ s b, be (s ++ [b]) = be s * 256 + b.toNat) ∧ (∀ s, be s < 256 ^ s.length) ∧
  (∀ n s, be (List.replicate n 0x00 ++ s) = be s)

/-- The byte order of every word on the wire (20_memory.md section 1, 00_scope.md section 5), on numbers: the high byte is the quotient
by 256, the low byte the remainder, and two bytes join with the first as the high one. -/
def Obligations.WordsSplitAndJoinBigEndian : Prop :=
  (∀ w, (hi w).toNat = w.toNat / 256 ∧ (lo w).toNat = w.toNat % 256) ∧
  (∀ a b, (be16 a b).toNat = 256 * a.toNat + b.toNat ∧ hi (be16 a b) = a ∧ lo (be16 a b) = b)

/-- The reading (R170), an exact rational: `(-1)^valneg * mant * 10^((-1)^expneg * expmag)`. -/
def Obligations.ReadingIsTheExactRational : Prop :=
  ∀ f : Fields, f.value =
    (-1 : ℚ) ^ f.valneg.toNat * (f.mant : ℚ) * (10 : ℚ) ^ ((-1 : ℤ) ^ f.expneg.toNat * (f.expmag : ℤ))

/-! ### The receive accumulator -/

/-- The accumulator is a bounded sequence (44_rx_accumulator.md, the invariants the spec marks as derived): for every wire stream, the
machine's records and the bytes it holds are those of a plain sequence that drops `0x40`, ends at `0x0d` and is cleared when a
byte more than `RX_CAP` arrives. -/
def Obligations.AccumulatorRefinesPlainSequence : Prop :=
  ∀ bs s acc, s.Inv → acc.length = s.rxlen → (∀ i < s.rxlen, acc[i]? = Memory.read s.rxbuf i) →
    ∃ t, runInstrs (rxFeed bs) s = .next t ∧
      t.results = s.results ++ (accRun s.rxCap s.reqid acc bs).2.map .record ∧
      t.rxlen = (accRun s.rxCap s.reqid acc bs).1.length ∧
      (∀ i < t.rxlen, (accRun s.rxCap s.reqid acc bs).1[i]? = Memory.read t.rxbuf i) ∧
      t.crc = s.crc ∧ t.reqid = s.reqid ∧ t.tx = s.tx ∧ t.rxCap = s.rxCap ∧ t.pending = s.pending

/-- "Exactly `RX_CAP` data bytes therefore fit without overflow; the `(RX_CAP + 1)`-th overflows" (R183), and the buffer is then
empty. -/
def Obligations.ExactlyCapacityDataBytesFit : Prop :=
  ∀ s bs b, s.Inv → s.rxlen = 0 → (∀ x ∈ bs, x ≠ 0x40 ∧ x ≠ 0x0d) → b ≠ 0x40 → b ≠ 0x0d → bs.length = s.rxCap →
    (∃ t, runInstrs (rxFeed bs) s = .next t ∧ t.rxlen = s.rxCap ∧
      t.results = s.results ++ List.replicate s.rxCap (.record ⟨.noEvent, 0, none⟩)) ∧
    (∃ t, runInstrs (rxFeed (bs ++ [b])) s = .next t ∧ t.rxlen = 0 ∧
      t.results = s.results ++ List.replicate s.rxCap (.record ⟨.noEvent, 0, none⟩) ++ [.record ⟨.overflow, 0, none⟩])

/-- A start marker is discarded "wherever it arrives" (R182): the frame events of a wire stream and the state it leaves are those of
the stream without its `0x40` bytes. -/
def Obligations.StartMarkersDoNotMatterAnywhere : Prop :=
  ∀ bs s, s.Inv → ∃ t u, runInstrs (rxFeed bs) s = .next t ∧ runInstrs (rxFeed (bs.filter (· ≠ 0x40))) s = .next u ∧
    { t with results := [] } = { u with results := [] } ∧
    eventsOf (t.results.drop s.results.length) = eventsOf (u.results.drop s.results.length)

/-- End to end (70_reset_and_hazards.md section 2): with an empty buffer and `RX_CAP >= 2 * (9 + L)`, a request followed by its
well-formed response, start markers before it, yields exactly one event, `FRAME_OK` with the response's fields. -/
def Obligations.RequestThenResponseYieldsItsReading : Prop :=
  ∀ s id unit e (mant : List Byte) n, s.Inv → s.rxlen = 0 → mant.length < 256 → 2 * (9 + mant.length) ≤ s.rxCap →
    ∃ t, runInstrs (.txReq id :: rxFeed (List.replicate n 0x40 ++ escapeSeq (responsePayload id unit e mant) ++ [0x0d])) s =
        .next t ∧
      eventsOf (t.results.drop s.results.length) = [goodRecord unit e mant] ∧
      t.tx = s.tx ++ encodeRequest id ∧ t.reqid = some id ∧ t.rxlen = 0 ∧ t.crc = s.crc

/-- The codes of the statuses (60_exceptions.md section 1, decision D16 of the spec): 0 to 5 and 7, no two alike. -/
def Obligations.StatusCodes : Prop :=
  Status.code .noEvent = 0 ∧ Status.code .frameOk = 1 ∧ Status.code .crcErr = 2 ∧ Status.code .hdrErr = 3 ∧
  Status.code .formatErr = 4 ∧ Status.code .overflow = 5 ∧ Status.code .illegalOp = 7 ∧
  ∀ a b : Status, a.code = b.code → a = b
end

