-- ==== Sys2Proof/Laws/PerInstr.lean ====
section
/-! SUPPORT. For every instruction: its unit matches its row of spec/opcode_table.json (30_encoding.md R66, R67, R68, R72, R81). The
numbers below are the table's own. -/

namespace Sys2Proof.Laws.RowMatch

open Sys2Proof Sys2Proof.Machine

/-- The bits of a unit, numbered as the table numbers them. -/
def codeBits : Code → Nat
  | .cmd w => w.toNat
  | .rxb b => b.toNat
  | .txb b => b.toNat
  | .deb b _ => b.toNat

/-- The row's `mask`. -/
def mask : Instr → Nat
  | .crcClr => 0xfffff
  | .crcUpd _ => 0xfff00
  | .crcRd => 0xfffff
  | .txReq _ => 0xf0000
  | .rxByte _ => 0xfff00
  | .rxbStart => 0xff
  | .rxbEnd => 0xff
  | .rxbData _ => 0x00
  | .txbEsc06 => 0xff
  | .txbEsc0D => 0xff
  | .txbEsc1B => 0xff
  | .txbEsc40 => 0xff
  | .txbEsc80 => 0xff
  | .txbLit _ => 0x00
  | .debEsc _ => 0xff
  | .debLit _ => 0x00

/-- The row's `match`. -/
def pattern : Instr → Nat
  | .crcClr => 0x10000
  | .crcUpd _ => 0x20000
  | .crcRd => 0x30000
  | .txReq _ => 0x40000
  | .rxByte _ => 0x50000
  | .rxbStart => 0x40
  | .rxbEnd => 0x0d
  | .rxbData _ => 0x00
  | .txbEsc06 => 0x06
  | .txbEsc0D => 0x0d
  | .txbEsc1B => 0x1b
  | .txbEsc40 => 0x40
  | .txbEsc80 => 0x80
  | .txbLit _ => 0x00
  | .debEsc _ => 0x1b
  | .debLit _ => 0x00

/-- For a default row, what the other rows of its format match: it "applies only when no other row of the same format matches"
(R81). -/
def others : Instr → List Nat
  | .crcClr => []
  | .crcUpd _ => []
  | .crcRd => []
  | .txReq _ => []
  | .rxByte _ => []
  | .rxbStart => []
  | .rxbEnd => []
  | .rxbData _ => [0x40, 0x0d]
  | .txbEsc06 => []
  | .txbEsc0D => []
  | .txbEsc1B => []
  | .txbEsc40 => []
  | .txbEsc80 => []
  | .txbLit _ => [0x06, 0x0d, 0x1b, 0x40, 0x80]
  | .debEsc _ => []
  | .debLit _ => [0x1b]

/-- A well-formed instruction's unit matches its row, and no row that goes before it. -/
def Statement (i : Instr) : Prop :=
  i.wf = true → codeBits (encode i) &&& mask i = pattern i ∧ codeBits (encode i) ∉ others i

theorem crcClr : Statement .crcClr := fun _ => by decide

/-- A byte operand leaves the masked bits of its command word alone. -/
theorem byte_operand_masked (op : BitVec 4) (b : Byte) :
    (cmdWord op (byteArg b)).toNat &&& 0xfff00 = (cmdWord op 0x0000).toNat := by
  revert op b; decide +kernel

/-- The bits of a command word are those of its fields. -/
theorem cmdWord_getLsbD (op : BitVec 4) (arg : Word16) (i : Nat) :
    (cmdWord op arg).getLsbD i = if i < 16 then arg.getLsbD i else op.getLsbD (i - 16) := by
  unfold cmdWord
  rw [BitVec.getLsbD_append]

/-- The register id leaves the masked bits of its command word alone. -/
theorem id_operand_masked (op : BitVec 4) (id : Word16) : (cmdWord op id).toNat &&& 0xf0000 = (cmdWord op 0x0000).toNat := by
  have h : cmdWord op id &&& 0xf0000#20 = cmdWord op 0x0000 := by
    apply BitVec.eq_of_getLsbD_eq
    intro i hi
    rw [BitVec.getLsbD_and, cmdWord_getLsbD, cmdWord_getLsbD]
    interval_cases i <;> simp
  simpa using congrArg BitVec.toNat h

theorem crcUpd (b : Byte) : Statement (.crcUpd b) :=
  fun _ => ⟨byte_operand_masked 0x2 b, List.not_mem_nil⟩

theorem crcRd : Statement .crcRd := fun _ => by decide

theorem txReq (id : Word16) : Statement (.txReq id) :=
  fun _ => ⟨id_operand_masked 0x4 id, List.not_mem_nil⟩

theorem rxByte (b : Byte) : Statement (.rxByte b) :=
  fun _ => ⟨byte_operand_masked 0x5 b, List.not_mem_nil⟩

theorem rxbStart : Statement .rxbStart := fun _ => by decide

theorem rxbEnd : Statement .rxbEnd := fun _ => by decide

theorem rxbData (b : Byte) : Statement (.rxbData b) := by
  revert b; unfold Statement; decide +kernel

theorem txbEsc06 : Statement .txbEsc06 := fun _ => by decide

theorem txbEsc0D : Statement .txbEsc0D := fun _ => by decide

theorem txbEsc1B : Statement .txbEsc1B := fun _ => by decide

theorem txbEsc40 : Statement .txbEsc40 := fun _ => by decide

theorem txbEsc80 : Statement .txbEsc80 := fun _ => by decide

theorem txbLit (b : Byte) : Statement (.txbLit b) := by
  revert b; unfold Statement; decide +kernel

theorem debEsc (next : Option Byte) : Statement (.debEsc next) :=
  fun _ => ⟨by simp [codeBits, encode, mask, pattern], List.not_mem_nil⟩

theorem debLit (b : Byte) : Statement (.debLit b) := by
  revert b; unfold Statement; decide +kernel

end Sys2Proof.Laws.RowMatch
end

