-- ==== Sys2Proof/Laws/Codec.lean ====
section
/-! SUPPORT. The small lemmas of the fields, of the CRC steps and of the de-escape scan, and that the scan of the buffer depends on its
cells and the capacity only. -/

namespace Sys2Proof.Machine

/-! ### Fields -/

/-- `op` of a command word. -/
@[simp] theorem cmdOp_cmdWord (op : BitVec 4) (arg : Word16) : cmdOp (cmdWord op arg) = op := by
  unfold cmdOp
  apply BitVec.eq_of_getLsbD_eq
  intro i hi
  rw [BitVec.getLsbD_extractLsb', Laws.RowMatch.cmdWord_getLsbD]
  simp [hi]

/-- `arg` of a command word. -/
@[simp] theorem cmdArg_cmdWord (op : BitVec 4) (arg : Word16) : cmdArg (cmdWord op arg) = arg := by
  unfold cmdArg
  apply BitVec.eq_of_getLsbD_eq
  intro i hi
  rw [BitVec.getLsbD_extractLsb', Laws.RowMatch.cmdWord_getLsbD]
  simp [hi]

/-- A command word is its two fields. -/
@[simp] theorem cmdWord_cmdOp_cmdArg (w : CmdWord) : cmdWord (cmdOp w) (cmdArg w) = w := by
  apply BitVec.eq_of_getLsbD_eq
  intro i hi
  rw [Laws.RowMatch.cmdWord_getLsbD, cmdOp, cmdArg]
  split_ifs with h
  · simp [h]
  · simp only [BitVec.getLsbD_extractLsb', show i - 16 < 4 by omega, show 16 + (i - 16) = i by omega, decide_true, Bool.true_and]

/-- The high byte of a byte operand is zero. -/
@[simp] theorem hi_byteArg (b : Byte) : hi (byteArg b) = 0x00 := by
  revert b; decide +kernel

/-- The low byte of a byte operand is the byte. -/
@[simp] theorem lo_byteArg (b : Byte) : lo (byteArg b) = b := by
  revert b; decide +kernel

/-- A word is its two bytes. -/
@[simp] theorem be16_hi_lo (w : Word16) : be16 (hi w) (lo w) = w := by
  unfold be16 hi lo
  apply BitVec.eq_of_getLsbD_eq
  intro i hi
  rw [BitVec.getLsbD_append]
  split_ifs with h
  · simp [h]
  · simp only [BitVec.getLsbD_extractLsb', show i - 8 < 8 by omega, show 8 + (i - 8) = i by omega, decide_true, Bool.true_and]

/-- Words with the same two bytes are equal. -/
theorem word_ext {v w : Word16} (h : hi v = hi w) (l : lo v = lo w) : v = w := by
  rw [← be16_hi_lo v, ← be16_hi_lo w, h, l]

/-- A word with high byte zero is the operand form of its low byte. -/
theorem byteArg_lo {w : Word16} (h : hi w = 0x00) : byteArg (lo w) = w :=
  word_ext (by rw [hi_byteArg, h]) (lo_byteArg _)

/-- The reserved set, spelled out (41_escape.md R120). -/
theorem isReserved_iff (b : Byte) : isReserved b = true ↔ b = 0x06 ∨ b = 0x0d ∨ b = 0x1b ∨ b = 0x40 ∨ b = 0x80 := by
  simp [isReserved, reserved]

/-- The complement undoes itself. -/
@[simp] theorem complement_complement (b : Byte) : complement (complement b) = b := by
  unfold complement
  rw [BitVec.xor_assoc, BitVec.xor_self, BitVec.xor_zero]

/-- A byte that is not reserved is not the escape prefix. -/
theorem ne_escPrefix_of_not_reserved {b : Byte} (h : isReserved b = false) : b ≠ escPrefix := by
  rintro rfl
  exact absurd h (by decide)

/-! ### The CRC steps -/

/-- The bit that leaves the register. -/
theorem crcShift_top (c : Word16) (b : Bool) : (crcShift c b).getLsbD 16 = c.getLsbD 15 := by
  unfold crcShift
  rw [BitVec.getLsbD_append]
  simp

/-- The bits that stay. -/
theorem crcShift_low (c : Word16) (b : Bool) :
    (crcShift c b).extractLsb' 0 16 = (c <<< 1) ^^^ (BitVec.ofBool b).setWidth 16 := by
  unfold crcShift
  apply BitVec.eq_of_getLsbD_eq
  intro i hi
  rw [BitVec.getLsbD_extractLsb', BitVec.getLsbD_append]
  cases b <;> (rcases i with _ | i <;> simp [hi])
  all_goals exact BitVec.getLsbD_eq_getElem (by omega)

/-- The bit step as one sum of three words. -/
theorem crcBit_eq (c : Word16) (b : Bool) :
    crcBit c b = (c <<< 1) ^^^ (BitVec.ofBool b).setWidth 16 ^^^ (if c.getLsbD 15 then crcPoly else 0) := by
  unfold crcBit
  rw [crcShift_top, crcShift_low]
  split_ifs <;> simp

/-- The bit step is linear. -/
theorem crcBit_xor (c d : Word16) (a b : Bool) : crcBit (c ^^^ d) (a ^^ b) = crcBit c a ^^^ crcBit d b := by
  have hs : (BitVec.ofBool (a ^^ b)).setWidth 16 = (BitVec.ofBool a).setWidth 16 ^^^ (BitVec.ofBool b).setWidth 16 := by
    cases a <;> cases b <;> decide
  have hp : (if (c ^^^ d).getLsbD 15 then crcPoly else 0) =
      (if c.getLsbD 15 then crcPoly else 0) ^^^ (if d.getLsbD 15 then crcPoly else 0) := by
    rw [BitVec.getLsbD_xor]
    cases c.getLsbD 15 <;> cases d.getLsbD 15 <;> decide
  have hc : (c ^^^ d) <<< 1 = (c <<< 1) ^^^ (d <<< 1) := BitVec.shiftLeft_xor_distrib c d 1
  simp only [crcBit_eq, hs, hp, hc]
  ac_rfl

/-- The bits of a sum of bytes. -/
theorem bitsOf_xor (a b : Byte) : bitsOf (a ^^^ b) = (bitsOf a).zipWith (· ^^ ·) (bitsOf b) := by
  simp [bitsOf]

/-- The byte step is linear. -/
theorem crcByte_xor (c d : Word16) (a b : Byte) : crcByte (c ^^^ d) (a ^^^ b) = crcByte c a ^^^ crcByte d b := by
  unfold crcByte
  rw [bitsOf_xor]
  simp only [bitsOf, List.zipWith_cons_cons, List.zipWith_nil_right, List.foldl_cons, List.foldl_nil, crcBit_xor]

/-- `crc16` goes on over what follows (40_crc.md R104 (c)). -/
theorem crc16_append (s t : List Byte) : crc16 (s ++ t) = t.foldl crcByte (crc16 s) := List.foldl_append

/-! ### The escape scan -/

/-- The empty sequence. -/
@[simp] theorem escapeSeq_nil : escapeSeq [] = [] := rfl

/-- The first byte's image comes first. -/
theorem escapeSeq_cons (b : Byte) (s : List Byte) : escapeSeq (b :: s) = escapeByte b ++ escapeSeq s := rfl

/-- A reserved byte's image. -/
theorem escapeByte_of_reserved {b : Byte} (h : isReserved b = true) : escapeByte b = [escPrefix, complement b] := by
  simp [escapeByte, escapedPair, h]

/-- Any other byte's image. -/
theorem escapeByte_of_not_reserved {b : Byte} (h : isReserved b = false) : escapeByte b = [b] := by
  simp [escapeByte, h]

/-- The scan at the end of the frame. -/
@[simp] theorem unescapeFrom_nil (warn : Nat) : unescapeFrom warn [] = .bytes [] warn := by
  rw [unescapeFrom]

/-- The scan at a prefix with a byte after it. -/
@[simp] theorem unescapeFrom_pair (warn : Nat) (n : Byte) (f : List Byte) :
    unescapeFrom warn (escPrefix :: n :: f) = (unescapeFrom (warn + anomaly (complement n)) f).cons (complement n) := by
  simp [unescapeFrom]

/-- The scan at a dangling prefix. -/
@[simp] theorem unescapeFrom_dangling (warn : Nat) : unescapeFrom warn [escPrefix] = .formatErr warn := by
  simp [unescapeFrom]

/-- The scan at any other byte. -/
theorem unescapeFrom_literal {b : Byte} (warn : Nat) (f : List Byte) (h : b ≠ escPrefix) :
    unescapeFrom warn (b :: f) = (unescapeFrom warn f).cons b := by
  cases f with
  | nil => simp [unescapeFrom, h, Unescaped.cons]
  | cons n f => simp [unescapeFrom, h]

/-! ### The scan of the buffer -/

/-- What a scan of the buffer reads depends on the capacity and the cells it scans only. -/
theorem memReads_congr {s u : State} (hc : u.rxCap = s.rxCap) : ∀ (n i : Nat),
    (∀ a, i ≤ a → a < i + n → Memory.read u.rxbuf a = Memory.read s.rxbuf a) → memReads u i n = memReads s i n := by
  intro n
  induction n with
  | zero => intros; rfl
  | succ n ih =>
    intro i h
    have e : memRead u i = memRead s i := by
      unfold memRead
      rw [hc, h i (by omega) (by omega)]
    simp only [memReads, e, ih (i + 1) fun a h1 h2 => h a (by omega) (by omega)]

end Sys2Proof.Machine
end

