-- ==== Sys2Proof/Laws/State.lean ====
section
/-! SUPPORT. One lemma per field per named update of the state, each true by unfolding the update. -/

namespace Sys2Proof.Machine

variable (s : State)

@[simp] theorem State.setCrc_crc (v : Word16) : (s.setCrc v).crc = v := rfl
@[simp] theorem State.setCrc_reqid (v : Word16) : (s.setCrc v).reqid = s.reqid := rfl
@[simp] theorem State.setCrc_rxbuf (v : Word16) : (s.setCrc v).rxbuf = s.rxbuf := rfl
@[simp] theorem State.setCrc_rxlen (v : Word16) : (s.setCrc v).rxlen = s.rxlen := rfl
@[simp] theorem State.setCrc_tx (v : Word16) : (s.setCrc v).tx = s.tx := rfl
@[simp] theorem State.setCrc_results (v : Word16) : (s.setCrc v).results = s.results := rfl
@[simp] theorem State.setCrc_rxCap (v : Word16) : (s.setCrc v).rxCap = s.rxCap := rfl
@[simp] theorem State.setCrc_pending (v : Word16) : (s.setCrc v).pending = s.pending := rfl

@[simp] theorem State.setReqid_crc (id : Word16) : (s.setReqid id).crc = s.crc := rfl
@[simp] theorem State.setReqid_reqid (id : Word16) : (s.setReqid id).reqid = some id := rfl
@[simp] theorem State.setReqid_rxbuf (id : Word16) : (s.setReqid id).rxbuf = s.rxbuf := rfl
@[simp] theorem State.setReqid_rxlen (id : Word16) : (s.setReqid id).rxlen = s.rxlen := rfl
@[simp] theorem State.setReqid_tx (id : Word16) : (s.setReqid id).tx = s.tx := rfl
@[simp] theorem State.setReqid_results (id : Word16) : (s.setReqid id).results = s.results := rfl
@[simp] theorem State.setReqid_rxCap (id : Word16) : (s.setReqid id).rxCap = s.rxCap := rfl
@[simp] theorem State.setReqid_pending (id : Word16) : (s.setReqid id).pending = s.pending := rfl

@[simp] theorem State.setRxlen_crc (n : Nat) : (s.setRxlen n).crc = s.crc := rfl
@[simp] theorem State.setRxlen_reqid (n : Nat) : (s.setRxlen n).reqid = s.reqid := rfl
@[simp] theorem State.setRxlen_rxbuf (n : Nat) : (s.setRxlen n).rxbuf = s.rxbuf := rfl
@[simp] theorem State.setRxlen_rxlen (n : Nat) : (s.setRxlen n).rxlen = n := rfl
@[simp] theorem State.setRxlen_tx (n : Nat) : (s.setRxlen n).tx = s.tx := rfl
@[simp] theorem State.setRxlen_results (n : Nat) : (s.setRxlen n).results = s.results := rfl
@[simp] theorem State.setRxlen_rxCap (n : Nat) : (s.setRxlen n).rxCap = s.rxCap := rfl
@[simp] theorem State.setRxlen_pending (n : Nat) : (s.setRxlen n).pending = s.pending := rfl

@[simp] theorem State.emit_crc (bs : List Byte) : (s.emit bs).crc = s.crc := rfl
@[simp] theorem State.emit_reqid (bs : List Byte) : (s.emit bs).reqid = s.reqid := rfl
@[simp] theorem State.emit_rxbuf (bs : List Byte) : (s.emit bs).rxbuf = s.rxbuf := rfl
@[simp] theorem State.emit_rxlen (bs : List Byte) : (s.emit bs).rxlen = s.rxlen := rfl
@[simp] theorem State.emit_tx (bs : List Byte) : (s.emit bs).tx = s.tx ++ bs := rfl
@[simp] theorem State.emit_results (bs : List Byte) : (s.emit bs).results = s.results := rfl
@[simp] theorem State.emit_rxCap (bs : List Byte) : (s.emit bs).rxCap = s.rxCap := rfl
@[simp] theorem State.emit_pending (bs : List Byte) : (s.emit bs).pending = s.pending := rfl

@[simp] theorem State.deliver_crc (r : Result) : (s.deliver r).crc = s.crc := rfl
@[simp] theorem State.deliver_reqid (r : Result) : (s.deliver r).reqid = s.reqid := rfl
@[simp] theorem State.deliver_rxbuf (r : Result) : (s.deliver r).rxbuf = s.rxbuf := rfl
@[simp] theorem State.deliver_rxlen (r : Result) : (s.deliver r).rxlen = s.rxlen := rfl
@[simp] theorem State.deliver_tx (r : Result) : (s.deliver r).tx = s.tx := rfl
@[simp] theorem State.deliver_results (r : Result) : (s.deliver r).results = s.results ++ [r] := rfl
@[simp] theorem State.deliver_rxCap (r : Result) : (s.deliver r).rxCap = s.rxCap := rfl
@[simp] theorem State.deliver_pending (r : Result) : (s.deliver r).pending = s.pending := rfl

@[simp] theorem State.endFrame_crc (r : Record) : (s.endFrame r).crc = s.crc := rfl
@[simp] theorem State.endFrame_reqid (r : Record) : (s.endFrame r).reqid = s.reqid := rfl
@[simp] theorem State.endFrame_rxbuf (r : Record) : (s.endFrame r).rxbuf = s.rxbuf := rfl
@[simp] theorem State.endFrame_rxlen (r : Record) : (s.endFrame r).rxlen = 0 := rfl
@[simp] theorem State.endFrame_tx (r : Record) : (s.endFrame r).tx = s.tx := rfl
@[simp] theorem State.endFrame_results (r : Record) : (s.endFrame r).results = s.results ++ [.record r] := rfl
@[simp] theorem State.endFrame_rxCap (r : Record) : (s.endFrame r).rxCap = s.rxCap := rfl
@[simp] theorem State.endFrame_pending (r : Record) : (s.endFrame r).pending = s.pending := rfl

@[simp] theorem State.refuse_crc : (s.refuse).crc = s.crc := rfl
@[simp] theorem State.refuse_reqid : (s.refuse).reqid = s.reqid := rfl
@[simp] theorem State.refuse_rxbuf : (s.refuse).rxbuf = s.rxbuf := rfl
@[simp] theorem State.refuse_rxlen : (s.refuse).rxlen = s.rxlen := rfl
@[simp] theorem State.refuse_tx : (s.refuse).tx = s.tx := rfl
@[simp] theorem State.refuse_results : (s.refuse).results = s.results ++ [.status .illegalOp] := rfl
@[simp] theorem State.refuse_rxCap : (s.refuse).rxCap = s.rxCap := rfl
@[simp] theorem State.refuse_pending : (s.refuse).pending = s.pending := rfl

@[simp] theorem State.resetEvent_crc : (s.resetEvent).crc = 0x0000 := rfl
@[simp] theorem State.resetEvent_reqid : (s.resetEvent).reqid = none := rfl
@[simp] theorem State.resetEvent_rxbuf : (s.resetEvent).rxbuf = [] := rfl
@[simp] theorem State.resetEvent_rxlen : (s.resetEvent).rxlen = 0 := rfl
@[simp] theorem State.resetEvent_tx : (s.resetEvent).tx = [] := rfl
@[simp] theorem State.resetEvent_results : (s.resetEvent).results = [] := rfl
@[simp] theorem State.resetEvent_rxCap : (s.resetEvent).rxCap = s.rxCap := rfl
@[simp] theorem State.resetEvent_pending : (s.resetEvent).pending = s.pending := rfl

@[simp] theorem State.reset_crc : State.reset.crc = 0x0000 := rfl
@[simp] theorem State.reset_reqid : State.reset.reqid = none := rfl
@[simp] theorem State.reset_rxbuf : State.reset.rxbuf = [] := rfl
@[simp] theorem State.reset_rxlen : State.reset.rxlen = 0 := rfl
@[simp] theorem State.reset_tx : State.reset.tx = [] := rfl
@[simp] theorem State.reset_results : State.reset.results = [] := rfl
@[simp] theorem State.reset_rxCap : State.reset.rxCap = Config.rxCap := rfl
@[simp] theorem State.reset_pending : State.reset.pending = [] := rfl

/-- The capacity of the instance is at least 1 (00_scope.md R5). -/
theorem rxCap_pos : 1 ≤ Config.rxCap := Nat.le_add_left 1 Config.rxCapPred

end Sys2Proof.Machine
end

