-- ==== Sys2Proof/Laws/Memory.lean ====
section
/-! SUPPORT. The receive buffer: reading after a write, the canonical form, and what the two memory operations and the hand-off can
do. -/

namespace Sys2Proof.Machine

@[simp] theorem Memory.read_nil (a : Nat) : Memory.read [] a = none := rfl

@[simp] theorem Memory.wf_nil : Memory.wf [] = true := rfl

/-- The byte written is the byte read (20_memory.md R44). -/
@[simp] theorem Memory.read_write_same (m : List Host.Cell) (a : Nat) (b : Byte) :
    Memory.read (Memory.write m a b) a = some b := by
  induction m with
  | nil => simp [Memory.write, Memory.read]
  | cons c m ih =>
    obtain ⟨k, v⟩ := c
    unfold Memory.write
    split_ifs with h1 h2
    · simp [Memory.read]
    · simp [Memory.read, h2]
    · simp [Memory.read, h2, ih]

/-- A write has no effect beyond its cell (R45). -/
theorem Memory.read_write_other (m : List Host.Cell) {a x : Nat} (b : Byte) (h : x ≠ a) :
    Memory.read (Memory.write m a b) x = Memory.read m x := by
  induction m with
  | nil => simp [Memory.write, Memory.read, h]
  | cons c m ih =>
    obtain ⟨k, v⟩ := c
    unfold Memory.write
    split_ifs with h1 h2
    · simp [Memory.read, h]
    · subst h2; simp [Memory.read, h]
    · simp [Memory.read, ih]

/-- Canonical: each index lies below every later one. -/
theorem Memory.wf_iff_pairwise (m : List Host.Cell) : Memory.wf m = true ↔ m.Pairwise (fun c d => c.1 < d.1) := by
  induction m with
  | nil => simp
  | cons c m ih =>
    cases m with
    | nil => simp [Memory.wf]
    | cons d m =>
      obtain ⟨k, x⟩ := c
      obtain ⟨l, y⟩ := d
      simp only [Memory.wf, Bool.and_eq_true, decide_eq_true_eq, ih, List.pairwise_cons, List.mem_cons]
      constructor
      · rintro ⟨hkl, hl, hm⟩
        refine ⟨?_, hl, hm⟩
        rintro c (rfl | hc)
        · exact hkl
        · exact lt_trans hkl (hl c hc)
      · rintro ⟨hk, hl, hm⟩
        exact ⟨hk _ (Or.inl rfl), hl, hm⟩

/-- A cell of the written list is the cell written or a cell of the old list. -/
theorem Memory.mem_write {m : List Host.Cell} {a : Nat} {b : Byte} {c : Host.Cell} (h : c ∈ Memory.write m a b) :
    c.1 = a ∨ c ∈ m := by
  induction m with
  | nil => simp [Memory.write] at h; simp [h]
  | cons d m ih =>
    obtain ⟨k, v⟩ := d
    unfold Memory.write at h
    split_ifs at h with h1 h2
    · rcases List.mem_cons.1 h with rfl | h
      · exact .inl rfl
      · exact .inr h
    · rcases List.mem_cons.1 h with rfl | h
      · exact .inl h2.symm
      · exact .inr (List.mem_cons_of_mem _ h)
    · rcases List.mem_cons.1 h with rfl | h
      · exact .inr (List.mem_cons_self ..)
      · exact (ih h).imp_right (List.mem_cons_of_mem _)

/-- A write keeps the canonical form. -/
theorem Memory.write_wf {m : List Host.Cell} (a : Nat) (b : Byte) (h : Memory.wf m = true) :
    Memory.wf (Memory.write m a b) = true := by
  rw [Memory.wf_iff_pairwise] at h ⊢
  induction m with
  | nil => simp [Memory.write]
  | cons d m ih =>
    obtain ⟨k, v⟩ := d
    obtain ⟨hk, hm⟩ := List.pairwise_cons.1 h
    unfold Memory.write
    split_ifs with h1 h2
    · refine List.pairwise_cons.2 ⟨?_, h⟩
      intro c hc
      rcases List.mem_cons.1 hc with rfl | hc
      · exact h1
      · exact lt_trans h1 (hk c hc)
    · exact List.pairwise_cons.2 ⟨hk, hm⟩
    · refine List.pairwise_cons.2 ⟨?_, ih hm⟩
      intro c hc
      rcases Memory.mem_write hc with rfl | hc
      · exact lt_of_le_of_ne (not_lt.1 h1) (Ne.symm h2)
      · exact hk c hc

/-- The reset state's cells are canonical. -/
theorem State.reset_wf : Memory.wf State.reset.rxbuf = true := rfl

/-- A read inside the array of a cell that holds a byte answers that byte. -/
theorem memRead_ok {s : State} {i : Nat} {b : Byte} : memRead s i = .ok b ↔ i < s.rxCap ∧ Memory.read s.rxbuf i = some b := by
  unfold memRead
  split_ifs with h
  · split <;> rename_i hr <;> simp [h, hr]
  · simp [h]

/-- A write answers exactly inside the array, and writes one cell. -/
theorem memWrite_ok {s t : State} {i : Nat} {b : Byte} :
    memWrite s i b = .ok t ↔ i < s.rxCap ∧ t = { s with rxbuf := Memory.write s.rxbuf i b } := by
  unfold memWrite
  split_ifs with h <;> simp [h, eq_comm]

/-- The hand-off answers a frame exactly when every cell it reads exists and holds the frame's byte. -/
theorem memReads_ok {s : State} {n : Nat} : ∀ {i : Nat} {f : List Byte}, memReads s i n = .ok f ↔
    f.length = n ∧ ∀ j < n, i + j < s.rxCap ∧ Memory.read s.rxbuf (i + j) = f[j]? := by
  induction n with
  | zero =>
    intro i f
    simp only [memReads, Except.ok.injEq]
    constructor
    · rintro rfl; simp
    · rintro ⟨h, -⟩; exact (List.length_eq_zero_iff.1 h).symm
  | succ n ih =>
    intro i f
    have shift : ∀ j, i + 1 + j = i + (j + 1) := fun j => by omega
    constructor
    · intro h
      simp only [memReads] at h
      split at h
      · cases h
      · rename_i b hb
        split at h
        · cases h
        · rename_i bs hbs
          obtain rfl := Except.ok.inj h
          obtain ⟨hl, hr⟩ := ih.1 hbs
          obtain ⟨hc, hm⟩ := memRead_ok.1 hb
          refine ⟨by simp [hl], ?_⟩
          rintro (_ | j) hj
          · exact ⟨by simpa using hc, by simpa using hm⟩
          · have := hr j (by omega)
            rw [shift] at this
            exact ⟨this.1, by simpa using this.2⟩
    · rintro ⟨hl, hr⟩
      cases f with
      | nil => simp at hl
      | cons b bs =>
        have h0 := hr 0 (by omega)
        have hb : memRead s i = .ok b := memRead_ok.2 ⟨by simpa using h0.1, by simpa using h0.2⟩
        have hbs : memReads s (i + 1) n = .ok bs := ih.2 ⟨by simpa using hl, fun j hj => by
          have := hr (j + 1) (by omega)
          rw [shift]
          exact ⟨this.1, by simpa using this.2⟩⟩
        simp only [memReads, hb, hbs]

/-- The raw frame is `rxbuf[0 .. rxlen)` (44_rx_accumulator.md R184). -/
theorem rawFrame_ok {s : State} {f : List Byte} : rawFrame s = .ok f ↔
    f.length = s.rxlen ∧ ∀ j < s.rxlen, j < s.rxCap ∧ Memory.read s.rxbuf j = f[j]? := by
  unfold rawFrame
  rw [memReads_ok]
  simp

/-- When a one-byte load stops, and at what. -/
theorem memRead_error {s : State} {i : Nat} {f : Fault} : memRead s i = .error f ↔
    (s.rxCap ≤ i ∧ f = .noSuchCell i) ∨ (i < s.rxCap ∧ Memory.read s.rxbuf i = none ∧ f = .unwrittenCell i) := by
  unfold memRead
  split_ifs with h
  · cases hr : Memory.read s.rxbuf i <;> simp [h, eq_comm]
  · simp [h, Nat.le_of_not_lt h, eq_comm]

/-- When a one-byte store stops, and at what. -/
theorem memWrite_error {s : State} {i : Nat} {b : Byte} {f : Fault} :
    memWrite s i b = .error f ↔ s.rxCap ≤ i ∧ f = .noSuchCell i := by
  unfold memWrite
  split_ifs with h
  · simp [h]
  · simp [Nat.le_of_not_lt h, eq_comm]

/-- A scan that stops does so at a cell it scans. -/
theorem memReads_error {s : State} {f : Fault} : ∀ {n i : Nat}, memReads s i n = .error f →
    ∃ k, i ≤ k ∧ k < i + n ∧ memRead s k = .error f := by
  intro n
  induction n with
  | zero => intro i h; cases h
  | succ n ih =>
    intro i h
    simp only [memReads] at h
    split at h
    · rename_i g hg
      exact ⟨i, le_rfl, by omega, hg.trans (congrArg _ (Except.error.inj h))⟩
    · split at h
      · rename_i g hg
        obtain ⟨k, h1, h2, hk⟩ := ih (hg.trans h)
        exact ⟨k, by omega, by omega, hk⟩
      · cases h

/-- A scan stops at the first cell that cannot be read. -/
theorem memReads_of_error {s : State} {k : Nat} {f : Fault} (hk : memRead s k = .error f) : ∀ {n i : Nat}, i ≤ k → k < i + n →
    (∀ a, i ≤ a → a < k → ∃ b, memRead s a = .ok b) → memReads s i n = .error f := by
  intro n
  induction n with
  | zero => intro i h1 h2; omega
  | succ n ih =>
    intro i h1 h2 hb
    rcases Nat.eq_or_lt_of_le h1 with rfl | h1
    · simp [memReads, hk]
    · obtain ⟨b, e⟩ := hb i le_rfl h1
      simp [memReads, e, ih (i := i + 1) h1 (by omega) fun a ha => hb a (by omega)]

end Sys2Proof.Machine
end

