-- ==== Sys2Proof/Laws/Exec.lean ====
section
/-! SUPPORT. What the shared operations of the receive accumulator, an invocation and a step can do, said once. -/

namespace Sys2Proof.Machine

/-- A data byte: the buffer overflows, or one cell is written and the length grows by one. -/
theorem acceptData_next {b : Byte} {s t : State} (h : acceptData b s = .next t) :
    (s.rxlen = s.rxCap ∧ t = s.endFrame Record.overflow) ∨
    (s.rxlen < s.rxCap ∧ t = { s with
      rxbuf := Memory.write s.rxbuf s.rxlen b, rxlen := s.rxlen + 1, results := s.results ++ [.record Record.noEvent] }) := by
  unfold acceptData at h
  split_ifs at h with hc
  · exact .inl ⟨hc, (Host.Outcome.next.inj h).symm⟩
  · split at h
    · cases h
    · rename_i u hu
      obtain ⟨hl, rfl⟩ := memWrite_ok.1 hu
      exact .inr ⟨hl, (Host.Outcome.next.inj h).symm⟩

/-- A data byte never stops inside the capacity. -/
theorem acceptData_of_lt {b : Byte} {s : State} (h : s.rxlen < s.rxCap) :
    acceptData b s = .next { s with
      rxbuf := Memory.write s.rxbuf s.rxlen b, rxlen := s.rxlen + 1, results := s.results ++ [.record Record.noEvent] } := by
  have hw : memWrite s s.rxlen b = .ok { s with rxbuf := Memory.write s.rxbuf s.rxlen b } := memWrite_ok.2 ⟨h, rfl⟩
  simp only [acceptData, Nat.ne_of_lt h, hw, if_false]
  rfl

/-- A data byte at the capacity ends the frame with `OVERFLOW`. -/
theorem acceptData_of_eq {b : Byte} {s : State} (h : s.rxlen = s.rxCap) :
    acceptData b s = .next (s.endFrame Record.overflow) := by
  simp [acceptData, h]

/-- A terminator hands the frame over and ends it. -/
theorem acceptEnd_next {s t : State} (h : acceptEnd s = .next t) :
    ∃ f, rawFrame s = .ok f ∧ t = s.endFrame (decodeFrame f s.reqid) := by
  unfold acceptEnd at h
  split at h
  · cases h
  · rename_i f hf
    exact ⟨f, hf, (Host.Outcome.next.inj h).symm⟩

/-- A terminator on a readable frame completes. -/
theorem acceptEnd_of_rawFrame {s : State} {f : List Byte} (h : rawFrame s = .ok f) :
    acceptEnd s = .next (s.endFrame (decodeFrame f s.reqid)) := by
  simp [acceptEnd, h]

/-- A data byte stops only where its cell does not exist. -/
theorem acceptData_fault {b : Byte} {s : State} {f : Fault} (h : acceptData b s = .fault f) :
    s.rxCap < s.rxlen ∧ f = .noSuchCell s.rxlen := by
  unfold acceptData at h
  split_ifs at h with hc
  split at h
  · rename_i g hg
    obtain ⟨h1, h2⟩ := memWrite_error.1 hg
    exact ⟨by omega, (Host.Outcome.fault.inj h).symm.trans h2⟩
  · cases h

/-- A terminator stops only at a cell of the frame that cannot be read. -/
theorem acceptEnd_fault {s : State} {f : Fault} (h : acceptEnd s = .fault f) : ∃ k < s.rxlen, memRead s k = .error f := by
  unfold acceptEnd at h
  split at h
  · rename_i g hg
    obtain ⟨k, -, hk, e⟩ := memReads_error hg
    exact ⟨k, by omega, e.trans (congrArg _ (Host.Outcome.fault.inj h))⟩
  · cases h

/-- RX.BYTE by the class of its byte (44_rx_accumulator.md R181). -/
theorem execRxByte_cases (b : Byte) (s : State) :
    (b = 0x40 ∧ execRxByte b s = acceptStart s) ∨ (b = 0x0d ∧ execRxByte b s = acceptEnd s) ∨
    (b ≠ 0x40 ∧ b ≠ 0x0d ∧ execRxByte b s = acceptData b s) := by
  unfold execRxByte
  split_ifs with h1 h2
  · exact .inl ⟨h1, rfl⟩
  · exact .inr (.inl ⟨h2, rfl⟩)
  · exact .inr (.inr ⟨h1, h2, rfl⟩)

/-- An invocation runs an operation or refuses an ill-formed command word. -/
theorem invoke_cases (w : CmdWord) (s : State) :
    (∃ i, decode (.cmd w) = .instr i ∧ invoke w s = exec i s) ∨
    (∃ e, decode (.cmd w) = .illegal e ∧ invoke w s = .next s.refuse) := by
  unfold invoke
  split
  · rename_i i h; exact .inl ⟨i, h, rfl⟩
  · rename_i e h; exact .inr ⟨e, h, rfl⟩

/-- A step takes nothing, a reset event, or an invocation. -/
theorem step_cases (s : State) :
    (s.pending = [] ∧ step s = .next s) ∨
    (∃ rest, s.pending = .reset :: rest ∧ step s = .next { s with pending := rest }.resetEvent) ∨
    (∃ w rest, s.pending = .cmd w :: rest ∧ step s = invoke w { s with pending := rest }) := by
  unfold step
  split
  · rename_i h; exact .inl ⟨h, rfl⟩
  · rename_i rest h; exact .inr (.inl ⟨rest, h, rfl⟩)
  · rename_i w rest h; exact .inr (.inr ⟨w, rest, h, rfl⟩)

/-- A sequence of instructions runs its first one and then the rest. -/
theorem runInstrs_cons_next {i : Instr} {is : List Instr} {s t : State} (h : exec i s = .next t) :
    runInstrs (i :: is) s = runInstrs is t := by
  simp [runInstrs, h]

end Sys2Proof.Machine
end

