-- ==== Sys2Proof/Tests/Slice0.lean ====
section
/-! SUPPORT. The model's own tests. Every expected value is taken from spec/ (95_test_vectors.md, by its vector names, or the rule
named); none is the model's own answer. The second half shows, for each statement of the certificates that has hypotheses, concrete
values that meet them together. -/

namespace Sys2Proof.Tests

open Sys2Proof.Machine

/-! ### Helpers -/

/-- A state whose buffer holds these bytes, of this capacity, after a request for this id. -/
def holding (cap : Nat) (q : Option Word16) (bs : List Byte) : State where
  crc := 0xb25f
  reqid := q
  rxbuf := bs.zipIdx.map fun p => (p.2, p.1)
  rxlen := bs.length
  tx := []
  results := []
  rxCap := cap
  pending := []

/-- The next state, if the instruction answers one. -/
def after (i : Instr) (s : State) : Option State :=
  match exec i s with
  | .next t => some t
  | .fault _ => none
  | .refused _ => none

/-- The last result of a next state. -/
def answer (i : Instr) (s : State) : Option Result := (after i s).bind fun t => t.results.getLast?

/-- The raw frame of V-DEC-01. -/
def goodFrame : List Byte := [0x3f, 0x10, 0x00, 0x3c, 0x02, 0x02, 0x03, 0x30, 0x39, 0x27, 0xd9]

/-! ### Well-formedness: an ill-formed term for each check, refused -/

theorem test_wf_rxbData_refuses_start : Instr.wf (.rxbData 0x40) = false := by decide
theorem test_wf_rxbData_refuses_end : Instr.wf (.rxbData 0x0d) = false := by decide
theorem test_wf_txbLit_refuses_reserved :
    [0x06, 0x0d, 0x1b, 0x40, 0x80].all (fun b => Instr.wf (.txbLit b) == false) = true := by decide
theorem test_wf_debLit_refuses_prefix : Instr.wf (.debLit 0x1b) = false := by decide
theorem test_wf_neighbours :
    (Instr.wf (.rxbData 0x3f) && Instr.wf (.rxbData 0x80) && Instr.wf (.txbLit 0x07) && Instr.wf (.debLit 0x1a)) = true := by
  decide

/-! ### Decoding words written out bit by bit (R71, R72: op in bits 19:16, arg in bits 15:0) -/

theorem test_decode_crcClr : decode (.cmd 0b0001_0000000000000000) = .instr .crcClr := by decide
theorem test_decode_crcUpd : decode (.cmd 0b0010_00000000_00111111) = .instr (.crcUpd 0x3f) := by decide
theorem test_decode_crcRd : decode (.cmd 0b0011_0000000000000000) = .instr .crcRd := by decide
theorem test_decode_txReq : decode (.cmd 0b0100_0000000000111100) = .instr (.txReq 0x003c) := by decide
theorem test_decode_rxByte : decode (.cmd 0b0101_00000000_00001101) = .instr (.rxByte 0x0d) := by decide
/-- V-CMD-07 to V-CMD-12. -/
theorem test_decode_illegal :
    [0x00000, 0x10001, 0x20100, 0x30001, 0x50100, 0x60000, 0xf0000].all
      (fun w => (decode (.cmd w)).toOption == none) = true := by decide
/-- R66. -/
theorem test_decode_rxb : decode (.rxb 0b01000000) = .instr .rxbStart ∧ decode (.rxb 0b00001101) = .instr .rxbEnd ∧
    decode (.rxb 0b10000000) = .instr (.rxbData 0x80) := by decide
/-- R67. -/
theorem test_decode_txb : decode (.txb 0b00000110) = .instr .txbEsc06 ∧ decode (.txb 0b00001101) = .instr .txbEsc0D ∧
    decode (.txb 0b00011011) = .instr .txbEsc1B ∧ decode (.txb 0b01000000) = .instr .txbEsc40 ∧
    decode (.txb 0b10000000) = .instr .txbEsc80 ∧ decode (.txb 0b01111111) = .instr (.txbLit 0x7f) := by decide
/-- R68, R123: the byte after a prefix is data even if it is the prefix value. -/
theorem test_decode_deb : decode (.deb 0b00011011 (some 0b00011011)) = .instr (.debEsc (some 0x1b)) ∧
    decode (.deb 0b00011011 none) = .instr (.debEsc none) ∧ decode (.deb 0b00011010 none) = .instr (.debLit 0x1a) := by decide
/-- The table's words: command words and the bytes that one stage has a row of its own for. -/
theorem test_decodeTableWord :
    decodeTableWord 24 0x2003f = some (.crcUpd 0x3f) ∧ decodeTableWord 20 0x10001 = none ∧
    decodeTableWord 8 0x40 = some .rxbStart ∧ decodeTableWord 8 0x06 = some .txbEsc06 ∧
    decodeTableWord 8 0x1b = some (.debEsc none) := by decide

/-! ### One step of each instruction -/

/-- V-CRC-OP-5. -/
theorem test_crcClr : (after .crcClr (holding 8 none [])).map State.crc = some 0x0000 := by decide
/-- The table of R102 in section 2.1. -/
theorem test_crcUpd_polynomial :
    (after (.crcUpd 0x00) { holding 8 none [] with crc := 0x8000 }).map State.crc = some 0x9188 := by decide +kernel
/-- V-CRC-OP-4. -/
theorem test_crcUpd_after_request : (after (.crcUpd 0x00) (holding 8 none [])).map State.crc = some 0xd899 := by decide +kernel
/-- V-CRC-OP-3, its last operation. -/
theorem test_crcRd : answer .crcRd (holding 8 none []) = some (.word 0xb25f) := by decide
/-- V-TX-13, the longest frame. -/
theorem test_txReq_longest : (after (.txReq 0x0d93) (holding 8 none [])).map State.tx =
    some [0x80, 0x3f, 0x10, 0x01, 0x1b, 0xf2, 0x93, 0x1b, 0x7f, 0x1b, 0xf9, 0x0d] := by decide +kernel
/-- V-TX-07, and R146: the id is latched, a partial frame stays. -/
theorem test_txReq_latches : (after (.txReq 0x0040) (holding 8 none [0x3f, 0x10])).map
    (fun t => (t.tx, t.reqid, t.rxlen, t.crc)) =
    some ([0x80, 0x3f, 0x10, 0x01, 0x00, 0x1b, 0xbf, 0x1b, 0xf2, 0x44, 0x0d], some 0x0040, 2, 0xb25f) := by decide +kernel
/-- V-DEC-01 at a terminator. -/
theorem test_rxByte_end : answer (.rxByte 0x0d) (holding 16 (some 0x003c) goodFrame) =
    some (.record ⟨.frameOk, 0, some ⟨0x02, 2, 3, false, false, 12345⟩⟩) := by decide +kernel
/-- R182, R183: `0x80` is data on receive; the start marker is not counted (V-RX-15). -/
theorem test_rxByte_data_and_start :
    (after (.rxByte 0x80) (holding 8 none [0x3f])).map (fun t => (t.rxbuf, t.rxlen)) = some ([(0, 0x3f), (1, 0x80)], 2) ∧
    (after (.rxByte 0x40) (holding 8 none [0x3f])).map (fun t => (t.rxbuf, t.rxlen)) = some ([(0, 0x3f)], 1) := by decide
/-- R182: nothing changes, the result is `(NONE, 0)`. -/
theorem test_rxbStart : after .rxbStart (holding 2 none [0x3f, 0x10]) =
    some { holding 2 none [0x3f, 0x10] with results := [.record ⟨.noEvent, 0, none⟩] } := by decide
/-- V-DEC-02, V-DEC-09, V-DEC-19, V-DEC-21: what is accepted. -/
theorem test_rxbEnd_accepts :
    answer .rxbEnd (holding 16 (some 0x003c) [0x3f, 0x10, 0x00, 0x3c, 0x02, 0x02, 0x43, 0x30, 0x39, 0x3a, 0x74]) =
      some (.record ⟨.frameOk, 0, some ⟨0x02, 2, 3, true, false, 12345⟩⟩) ∧
    answer .rxbEnd (holding 16 (some 0x003c) [0x3f, 0x10, 0x00, 0x3c, 0x02, 0x02, 0x03, 0x30, 0x1b, 0xc6, 0x27, 0xd9]) =
      some (.record ⟨.frameOk, 1, some ⟨0x02, 2, 3, false, false, 12345⟩⟩) ∧
    answer .rxbEnd (holding 9 (some 0x003c) [0x3f, 0x10, 0x00, 0x3c, 0x02, 0x00, 0x00, 0xc4, 0x5b]) =
      some (.record ⟨.frameOk, 0, some ⟨0x02, 0, 0, false, false, 0⟩⟩) ∧
    answer .rxbEnd (holding 16 (some 0x003c) [0x3f, 0x10, 0x00, 0x3c, 0x02, 0x02, 0x03, 0x30, 0x39, 0xaa, 0x99, 0x25]) =
      some (.record ⟨.frameOk, 0, some ⟨0x02, 2, 3, false, false, 12345⟩⟩) := by decide +kernel
/-- V-DEC-05, V-DEC-07, V-DEC-10, V-DEC-16, V-DEC-18, V-RX-10: what is not, by its status. -/
theorem test_rxbEnd_rejects :
    answer .rxbEnd (holding 16 (some 0x003c) [0x3f, 0x10, 0x00, 0x3c, 0x02, 0x02, 0x03, 0x30, 0x39, 0x27, 0xd8]) =
      some (.record ⟨.crcErr, 0, none⟩) ∧
    answer .rxbEnd (holding 16 none goodFrame) = some (.record ⟨.hdrErr, 0, none⟩) ∧
    answer .rxbEnd (holding 16 (some 0x003c) (goodFrame ++ [0x1b])) = some (.record ⟨.formatErr, 0, none⟩) ∧
    answer .rxbEnd (holding 16 (some 0x003c) [0x3f, 0x10, 0x00, 0x3c, 0x4c, 0xbb]) = some (.record ⟨.formatErr, 0, none⟩) ∧
    answer .rxbEnd (holding 16 (some 0x003c) [0x3f, 0x10, 0x00, 0x3c, 0x02, 0x03, 0x03, 0x30, 0x39, 0x51, 0x6d]) =
      some (.record ⟨.formatErr, 0, none⟩) ∧
    answer .rxbEnd (holding 16 (some 0x003c) []) = some (.record ⟨.formatErr, 0, none⟩) := by decide +kernel
/-- V-RX-07: the ninth byte at capacity 8 overflows and is dropped. -/
theorem test_rxbData_overflow :
    (after (.rxbData 0x11) (holding 8 none (List.replicate 8 0x11))).map (fun t => (t.rxlen, t.results)) =
      some (0, [.record ⟨.overflow, 0, none⟩]) := by decide
/-- V-RX-06: the eighth fits. -/
theorem test_rxbData_fits :
    (after (.rxbData 0x11) (holding 8 none (List.replicate 7 0x11))).map (fun t => (t.rxlen, t.results)) =
      some (8, [.record ⟨.noEvent, 0, none⟩]) := by decide
/-- V-ESC-01. -/
theorem test_txbEsc06 : answer .txbEsc06 (holding 8 none []) = some (.image [0x1b, 0xf9]) := by decide
/-- V-ESC-02. -/
theorem test_txbEsc0D : answer .txbEsc0D (holding 8 none []) = some (.image [0x1b, 0xf2]) := by decide
/-- V-ESC-03. -/
theorem test_txbEsc1B : answer .txbEsc1B (holding 8 none []) = some (.image [0x1b, 0xe4]) := by decide
/-- V-ESC-04. -/
theorem test_txbEsc40 : answer .txbEsc40 (holding 8 none []) = some (.image [0x1b, 0xbf]) := by decide
/-- V-ESC-05. -/
theorem test_txbEsc80 : answer .txbEsc80 (holding 8 none []) = some (.image [0x1b, 0x7f]) := by decide
/-- V-ESC-08. -/
theorem test_txbLit : answer (.txbLit 0x7f) (holding 8 none []) = some (.image [0x7f]) := by decide
/-- V-ESC-14, V-ESC-15: anomalies. -/
theorem test_debEsc_anomaly :
    answer (.debEsc (some 0xc6)) (holding 8 none []) = some (.unescaped 0x39 1) ∧
    answer (.debEsc (some 0x1b)) (holding 8 none []) = some (.unescaped 0xe4 1) := by decide
/-- V-ESC-02 and V-ESC-21. -/
theorem test_debEsc_pair_and_dangling :
    answer (.debEsc (some 0xf2)) (holding 8 none []) = some (.unescaped 0x0d 0) ∧
    answer (.debEsc none) (holding 8 none []) = some (.record ⟨.formatErr, 0, none⟩) := by decide
/-- V-ESC-19: raw reserved bytes other than the prefix pass unchanged, without warning. -/
theorem test_debLit : answer (.debLit 0x80) (holding 8 none []) = some (.unescaped 0x80 0) := by decide
/-- V-CMD-08: an ill-formed command word placed for the next step changes nothing but the result stream. -/
theorem test_step_illegal : step ((holding 4 none []).withFetchWord 24 0x10001) =
    .next { holding 4 none [] with results := [.status .illegalOp] } := by rfl
/-- V-CMD-02: a legal one runs. -/
theorem test_step_legal : step ((holding 4 none []).withFetchWord 24 0x4ffff) =
    exec (.txReq 0xffff) (holding 4 none []) := by rfl
/-- R7: the bytes of a stage run inside the operation that meets them. A received `0x40` in RX.BYTE (R182), a payload byte `0x06` in
TX.REQ (R121, R142), a prefix that ends a frame in the terminator (V-ESC-21). -/
theorem test_step_stage_bytes :
    step ((holding 4 none [0x3f]).withFetchWord 8 0x40) =
      .next { holding 4 none [0x3f] with results := [.record ⟨.noEvent, 0, none⟩] } ∧
    (holding 4 none []).withFetchWord 8 0x06 = { holding 4 none [] with pending := [.cmd 0x40006] } ∧
    (encodeRequest 0x0006).take 7 = [0x80, 0x3f, 0x10, 0x01, 0x00, 0x1b, 0xf9] ∧
    step ((holding 4 none []).withFetchWord 8 0x1b) =
      .next { holding 4 none [] with rxbuf := [(0, 0x1b)], results := [.record ⟨.formatErr, 0, none⟩] } :=
  ⟨rfl, by decide, by decide +kernel, rfl⟩
/-- V-ESC-18, V-ESC-16: anomalies are counted across the scan. -/
theorem test_unescape_scan : unescapeSeq [0x1b, 0xc6, 0x1b] = .formatErr 1 ∧
    unescapeSeq [0x1b, 0x1b, 0x1b, 0xf2] = .bytes [0xe4, 0x0d] 1 := by decide
/-- V-CRC-12, V-CRC-14. -/
theorem test_crc16 : crc16 [0x31, 0x32, 0x33, 0x34, 0x35, 0x36, 0x37, 0x38, 0x39] = 0xbeef ∧
    crc16 [0x01, 0x10, 0x21] = 0x0000 := by decide +kernel
/-- V-DEC-02: 12.345. -/
theorem test_value : Fields.value ⟨0x02, 2, 3, true, false, 12345⟩ = 2469 / 200 := by
  norm_num [Fields.value, Fields.signedMant, Rat.mkRat_eq_div]

/-! ### Witnesses: each statement's hypotheses hold of something

The name says which statement; where its clauses have hypotheses of their own, each clause has its witness, at the bounds of its
ranges. -/

/-- A good frame waits in a buffer that it fills. -/
def full : State := holding 11 (some 0x003c) goodFrame

/-- The same with room for one byte. -/
def roomForOne : State := holding 12 (some 0x003c) goodFrame

/-- Empty, of the capacity that `2 * (9 + 2)` needs. -/
def idle : State := holding 22 none []

/-- A state with one input waiting. -/
def waiting (x : Input) : State := { full with pending := [x] }

theorem full_inv : State.Inv full := ⟨by decide, by decide, by decide, by decide, by decide⟩
theorem roomForOne_inv : State.Inv roomForOne := ⟨by decide, by decide, by decide, by decide, by decide⟩
theorem idle_inv : State.Inv idle := ⟨by decide, by decide, by decide, by decide, by decide⟩
theorem waiting_inv (x : Input) : State.Inv (waiting x) := ⟨full_inv.1, full_inv.2, full_inv.3, full_inv.4, full_inv.5⟩

theorem test_witness_DecodeOfEncode :
    [Instr.crcClr, .crcUpd 0xff, .crcRd, .txReq 0xffff, .rxByte 0xff, .rxbStart, .rxbEnd, .rxbData 0x3f, .txbEsc06, .txbEsc0D,
      .txbEsc1B, .txbEsc40, .txbEsc80, .txbLit 0x81, .debEsc none, .debEsc (some 0x1b), .debLit 0x1c].all Instr.wf = true := by
  decide

theorem test_witness_EncodeOfDecode :
    decode (.cmd 0x500ff) = .instr (.rxByte 0xff) ∧ decode (.rxb 0x41) = .instr (.rxbData 0x41) ∧
    decode (.txb 0x80) = .instr .txbEsc80 ∧ decode (.deb 0x1b none) = .instr (.debEsc none) ∧
    decode (.deb 0x1b (some 0xf2)) = .instr (.debEsc (some 0xf2)) ∧ decode (.deb 0x3f (some 0x10)) = .instr (.debLit 0x3f) := by
  decide

theorem test_witness_StepRuns :
    ((waiting (.cmd 0x5000d)).pending = [.cmd 0x5000d] ∧ decode (.cmd 0x5000d) = .instr (.rxByte 0x0d)) ∧
    ((waiting (.cmd 0x10001)).pending = [.cmd 0x10001] ∧ decode (.cmd 0x10001) = .illegal (.argNotZero 0x1 0x0001)) ∧
    full.pending = [] ∧ decode (.cmd 0x2003f) = .instr (.crcUpd 0x3f) := by decide

theorem test_witness_IllegalCommandWord : [0x00000#20, 0x10001, 0x20100, 0x30001, 0x50100, 0x60000, 0xf0000].all
    (fun w => (waiting (.cmd w)).pending == [.cmd w] && w &&& 0xfffff != 0x10000 && w &&& 0xfff00 != 0x20000 &&
      w &&& 0xfffff != 0x30000 && w &&& 0xf0000 != 0x40000 && w &&& 0xfff00 != 0x50000) = true := by decide

theorem test_witness_ResetEvent : (waiting .reset).pending = [.reset] := by decide

theorem test_witness_PresentedSequence :
    [0x4003c, 0x50040, 0x5003f, 0x30000].map (fun w => decode (.cmd w)) =
      [.txReq 0x003c, .rxByte 0x40, .rxByte 0x3f, .crcRd].map .instr ∧ full.pending = [] := by decide

theorem test_witness_DataByteAppended :
    ((0x3f : Byte) ≠ 0x40 ∧ (0x3f : Byte) ≠ 0x0d ∧ roomForOne.rxlen < roomForOne.rxCap) ∧
    ((0x80 : Byte) ≠ 0x40 ∧ (0x80 : Byte) ≠ 0x0d ∧ idle.rxlen < idle.rxCap) := by decide

theorem test_witness_Overflow : (0x41 : Byte) ≠ 0x40 ∧ (0x41 : Byte) ≠ 0x0d ∧ full.rxlen = full.rxCap := by decide

theorem test_witness_Terminator :
    (full.rxlen ≤ full.rxCap ∧ ∀ i < full.rxlen, (Memory.read full.rxbuf i).isSome = true) ∧
    (idle.rxlen ≤ idle.rxCap ∧ (∀ i < idle.rxlen, (Memory.read idle.rxbuf i).isSome = true) ∧ idle.rxlen = 0) := by decide

theorem test_witness_AccumulatorStops :
    ((0x3f : Byte) ≠ 0x40 ∧ (0x3f : Byte) ≠ 0x0d ∧ ({ full with rxCap := 10 } : State).rxCap < full.rxlen) ∧
    (10 < ({ full with rxCap := 10 } : State).rxlen ∧
      (∀ a < 10, a < ({ full with rxCap := 10 } : State).rxCap ∧ (Memory.read full.rxbuf a).isSome = true) ∧
      ({ full with rxCap := 10 } : State).rxCap ≤ 10) ∧
    (11 < ({ roomForOne with rxlen := 12 } : State).rxlen ∧
      (∀ a < 11, a < roomForOne.rxCap ∧ (Memory.read roomForOne.rxbuf a).isSome = true) ∧ 11 < roomForOne.rxCap ∧
      Memory.read roomForOne.rxbuf 11 = none) := by decide

/-- The premise of its converse: a stop at the first cell and one past the capacity. -/
theorem test_witness_AccumulatorStops_converse :
    exec .rxbEnd { idle with rxlen := 1 } = .fault (.unwrittenCell 0) ∧
    exec (.rxbData 0x3f) { full with rxCap := 10 } = .fault (.noSuchCell 11) := ⟨rfl, rfl⟩

theorem test_witness_StepKeepsTheInvariant :
    State.Inv (waiting (.cmd 0x5003f)) ∧
    step (waiting (.cmd 0x5003f)) = .next { full with rxlen := 0, results := [.record ⟨.overflow, 0, none⟩] } :=
  ⟨waiting_inv _, rfl⟩

theorem test_witness_EveryInstructionCompletes : State.Inv full := full_inv
theorem test_witness_NoSequenceMakesTheBlockStuck : State.Inv (waiting (.cmd 0x00000)) := waiting_inv _

theorem test_witness_EachElement :
    (Instr.wf (.txReq 0xffff) = true ∧ (after (.txReq 0xffff) full).isSome = true) ∧
    (Instr.wf .crcClr = true ∧ (after .crcClr full).isSome = true ∧ receivedByte .crcClr = none) ∧
    (Instr.wf .rxbStart = true ∧ (after .rxbStart full).isSome = true ∧ receivedByte .rxbStart = some 0x40) ∧
    (Instr.wf (.rxbData 0x3f) = true ∧ (after (.rxbData 0x3f) roomForOne).isSome = true ∧ (3 : Nat) ≠ roomForOne.rxlen) ∧
    (Instr.wf .rxbEnd = true ∧ (after .rxbEnd roomForOne).isSome = true ∧ receivedByte .rxbEnd = some 0x0d) ∧
    (Instr.wf (.rxByte 0x3f) = true ∧ (after (.rxByte 0x3f) full).isSome = true ∧ full.rxlen = full.rxCap) := by
  decide +kernel

theorem test_witness_CrcDepends :
    runInstrs [.crcRd, .crcClr, .txbLit 0x00] idle =
      .next { idle with crc := 0x0000, results := [.word 0xb25f, .nothing, .image [0x00]] } := by rfl

theorem test_witness_TransmitStream :
    runInstrs [.rxbStart, .debLit 0x00] idle =
      .next { idle with results := [.record ⟨.noEvent, 0, none⟩, .unescaped 0x00 0] } := by rfl

theorem test_witness_CellsAboveRxlen :
    ∀ a < ({ full with rxlen := 1 } : State).rxlen, Memory.read [(0, 0x3f), (7, 0xaa)] a = Memory.read full.rxbuf a := by decide

theorem test_witness_OnlyTerminatorOrOverflow :
    (Instr.wf (.rxbData 0x22) = true ∧ Instr.wf (.rxByte 0x0d) = true) ∧
    (full.rxlen ≠ 0 ∧ (after (.rxByte 0x0d) full).map State.rxlen = some 0 ∧ receivedByte (.rxByte 0x0d) = some 0x0d) ∧
    (full.rxlen ≠ 0 ∧ (after (.rxbData 0x22) full).map State.rxlen = some 0 ∧ full.rxlen = full.rxCap ∧
      receivedByte (.rxbData 0x22) = some 0x22) ∧
    (after (.rxByte 0x22) full).map (fun t => decide (t.results ≠ full.results ++ [.record ⟨.noEvent, 0, none⟩])) =
      some true := by decide +kernel

theorem test_witness_CrcIsLinear : [0x3f, 0x10, (0x01 : Byte)].length = [0x00, 0x3c, (0xaa : Byte)].length := by decide

theorem test_witness_CrcDetects :
    (0 < (appendCrc [0x3f, 0x10]).length ∧ 0 < 8) ∧ (3 < (appendCrc [0x3f, 0x10]).length ∧ 7 < 8) ∧
    [0x3f, 0x10, 0x01, 0x00, 0x3c] ++ [0xb2, 0x5e] ≠ appendCrc [0x3f, 0x10, 0x01, 0x00, 0x3c] := by decide +kernel

theorem test_witness_UnescapeScans : unescapeSeq [0x1b, 0xf2] = .bytes [0x0d] 0 ∧ unescapeSeq [0x3f, 0x10] = .bytes [0x3f, 0x10] 0 ∧
    unescapeSeq [] = .bytes [] 0 := by decide

theorem test_witness_UnescapeFails : unescapeSeq [0x1b, 0xc6, 0x1b] = .formatErr 1 ∧ unescapeSeq [0x1b] = .formatErr 0 := by decide

/-- Both outcomes of the scan are met, a prefix taking the prefix value after it. -/
theorem test_witness_UnescapeSeqIsTheUnitsOutputs :
    unescapeSeq [0x1b, 0x1b, 0x55] = .bytes [0xe4, 0x55] 1 ∧
    debUnits [0x1b, 0x1b, 0x55] = [.deb 0x1b (some 0x1b), .deb 0x55 none] ∧ unescapeSeq [0x3f, 0x1b] = .formatErr 0 ∧
    debUnits [0x3f, 0x1b] = [.deb 0x3f (some 0x1b), .deb 0x1b none] := by decide

theorem test_witness_RequestFrameInjective : encodeRequest 0x0000 = encodeRequest (0xffff + 0x0001) := by decide +kernel

theorem test_witness_OnlyVerified : (decodeFrame goodFrame (some 0x003c)).status = .frameOk := by decide +kernel

theorem test_witness_GoodResponse : ([] : List Byte).length < 256 ∧ (List.replicate 255 (0x39 : Byte)).length < 256 :=
  ⟨by decide, by rw [List.length_replicate]; decide⟩

theorem test_witness_CorruptedResponse :
    [0x30, (0x39 : Byte)].length < 256 ∧ 0 < (responsePayload 0x003c 0x02 0x03 [0x30, 0x39]).length ∧
    10 < (responsePayload 0x003c 0x02 0x03 [0x30, 0x39]).length ∧ 7 < 8 := by decide +kernel

theorem test_witness_ForeignResponse :
    ([] : List Byte).length < 256 ∧ (none : Option Word16) ≠ some 0x003c ∧ some (0x003d : Word16) ≠ some 0x003c := by decide

theorem test_witness_LeadingZero : (decodeFrame goodFrame (some 0x003c)).status = .frameOk := by decide +kernel

theorem test_witness_AccumulatorRefines :
    State.Inv full ∧ goodFrame.length = full.rxlen ∧ ∀ i < full.rxlen, goodFrame[i]? = Memory.read full.rxbuf i :=
  ⟨full_inv, by decide⟩

theorem test_witness_ExactlyCapacity :
    State.Inv idle ∧ idle.rxlen = 0 ∧ (∀ x ∈ List.replicate 22 (0x11 : Byte), x ≠ 0x40 ∧ x ≠ 0x0d) ∧ (0x22 : Byte) ≠ 0x40 ∧
    (0x22 : Byte) ≠ 0x0d ∧ (List.replicate 22 (0x11 : Byte)).length = idle.rxCap :=
  ⟨idle_inv, by decide⟩

theorem test_witness_StartMarkers : State.Inv full ∧ State.Inv roomForOne := ⟨full_inv, roomForOne_inv⟩

theorem test_witness_RequestThenResponse :
    State.Inv idle ∧ idle.rxlen = 0 ∧ [0x30, (0x39 : Byte)].length < 256 ∧ 2 * (9 + [0x30, (0x39 : Byte)].length) ≤ idle.rxCap :=
  ⟨idle_inv, by decide⟩

end Sys2Proof.Tests
end

section
/-! The exponent byte of a response (30_encoding.md R64): its three fields on numbers and as masks. -/

namespace Sys2Proof.Proofs.ExponentByte

open Sys2Proof Sys2Proof.Machine

/-- A mask of one bit selects that bit. -/
theorem getLsbD_iff_and_twoPow_ne_zero {w : Nat} (x : BitVec w) {i : Nat} (hi : i < w) :
    x.getLsbD i = true ↔ x &&& BitVec.twoPow w i ≠ 0 := by
  have hmask : BitVec.twoPow w i ≠ 0 := by
    rw [← BitVec.toNat_ne_iff_ne, BitVec.toNat_twoPow_of_lt hi]
    exact Nat.two_pow_pos i |>.ne'
  rw [BitVec.and_twoPow]
  split
  next hset => exact iff_of_true hset hmask
  next hclear => exact iff_of_false hclear (not_not_intro rfl)

/-- R64, bits 5:0: `expmag` is the byte modulo 64. -/
theorem expMag_eq_toNat_mod (e : Byte) : expMag e = e.toNat % 64 := by
  rw [expMag, BitVec.extractLsb'_toNat, Nat.shiftRight_zero]

/-- R64, bits 5:0: the range of `expmag`. -/
theorem expMag_le (e : Byte) : expMag e ≤ 63 := by
  rw [expMag_eq_toNat_mod]
  omega

/-- R64, bit 6: `expneg` is the mask `0x40`. -/
theorem expNeg_iff_mask (e : Byte) : expNeg e = true ↔ e &&& 0x40 ≠ 0 :=
  getLsbD_iff_and_twoPow_ne_zero e (i := 6) (by decide)

/-- R64, bit 7: `valneg` is the mask `0x80`. -/
theorem valNeg_iff_mask (e : Byte) : valNeg e = true ↔ e &&& 0x80 ≠ 0 :=
  getLsbD_iff_and_twoPow_ne_zero e (i := 7) (by decide)

/-- Settles O51: the magnitude is a remainder, and each flag is a mask of one bit. -/
theorem exponentByteFields : Obligations.ExponentByteFields := fun e =>
  ⟨expMag_eq_toNat_mod e, expMag_le e, expNeg_iff_mask e, valNeg_iff_mask e⟩

end Sys2Proof.Proofs.ExponentByte
end

section
/-! The de-escape scan (41_escape.md R123): its one-step equation on explicit constants and the length bounds of its output. -/

namespace Sys2Proof.Proofs.UnescapeScan

open Sys2Proof Sys2Proof.Machine

/-- Bytes come out of a longer scan only by a decoded byte in front of the bytes of the rest. -/
theorem cons_eq_bytes_iff {v : Byte} {u : Unescaped} {d : List Byte} {w : Nat} :
    u.cons v = .bytes d w ↔ ∃ d', u = .bytes d' w ∧ d = v :: d' := by
  cases u with
  | bytes d' w' => simp [Unescaped.cons, eq_comm, and_comm]
  | formatErr w' => simp [Unescaped.cons]

/-- R126 on the constants of R120: a pair counts exactly when its value is outside the reserved set. -/
theorem anomaly_complement_eq (n : Byte) :
    anomaly (complement n) = if n ^^^ 0xff ∈ [0x06, 0x0d, 0x1b, 0x40, 0x80] then 0 else 1 := by
  simp [anomaly, isReserved, reserved, complement, escXor]

/-- A scan from any warning count: each decoded byte uses up one or two bytes of the frame. -/
theorem unescapeFrom_length_bounds (warn : Nat) (f : List Byte) : ∀ {d : List Byte} {w : Nat},
    unescapeFrom warn f = .bytes d w → d.length ≤ f.length ∧ f.length ≤ 2 * d.length := by
  induction warn, f using unescapeFrom.induct with
  | case1 warn =>
    intro d w h
    obtain ⟨rfl, -⟩ : [] = d ∧ warn = w := by simpa using h
    simp
  | case2 warn =>
    intro d w h
    simp at h
  | case3 warn b hb =>
    intro d w h
    obtain ⟨rfl, -⟩ : [b] = d ∧ warn = w := by simpa [unescapeFrom_literal warn [] hb, Unescaped.cons] using h
    simp
  | case4 warn n f ih =>
    intro d w h
    rw [unescapeFrom_pair, cons_eq_bytes_iff] at h
    obtain ⟨d', h', rfl⟩ := h
    have hrest := ih h'
    simp only [List.length_cons]
    omega
  | case5 warn b n f hb ih =>
    intro d w h
    rw [unescapeFrom_literal warn (n :: f) hb, cons_eq_bytes_iff] at h
    obtain ⟨d', h', rfl⟩ := h
    have hrest := ih h'
    simp only [List.length_cons] at hrest ⊢
    omega

/-- Settles O38: the scan starts at count 0, the bounds hold from every count, and the three laws of the scan are the branches of the
recursion. -/
theorem unescapeScansLeftToRight : Obligations.UnescapeScansLeftToRight := by
  refine ⟨fun _ => rfl, fun f d w h => unescapeFrom_length_bounds 0 f h, fun warn f => ?_⟩
  match f with
  | [] => exact unescapeFrom_nil warn
  | b :: f' =>
    by_cases hb : b = 0x1b
    · subst hb
      match f' with
      | [] => exact unescapeFrom_dangling warn
      | n :: f'' =>
        dsimp only
        rw [if_pos rfl, ← anomaly_complement_eq]
        exact unescapeFrom_pair warn n f''
    · dsimp only
      rw [if_neg hb]
      exact unescapeFrom_literal warn f' hb

end Sys2Proof.Proofs.UnescapeScan
end

section
/-! The CRC of a message that ends in two chosen bytes (40_crc.md R104 (b), (d)), and the residue of a message behind which its own CRC
stands (42_tx_encode.md R141). -/

namespace Sys2Proof.Proofs.CrcResidue

open Sys2Proof Sys2Proof.Machine

/-- The bits of a word given by its two bytes. -/
theorem getElem_be16 (a b : Byte) {i : Nat} (hlt : i < 16) :
    (be16 a b)[i] = if h : i < 8 then b[i] else a[i - 8] :=
  BitVec.getElem_append hlt

/-- With a 0 leaving the high end, the bit step is a plain shift. -/
theorem crcBit_of_top_clear {c : Word16} (b : Bool) (h : c.getLsbD 15 = false) : crcBit c b = c.shiftConcat b := by
  rw [crcBit_eq, h]
  apply BitVec.eq_of_getElem_eq
  intro i hlt
  cases i <;> cases b <;> simp [BitVec.getElem_shiftConcat]

/-- With a zero high byte in the register, the byte step moves the low byte up and takes the new byte in behind it: the polynomial is
never XOR-ed in. -/
theorem crcByte_be16_zero (a b : Byte) : crcByte (be16 0x00 a) b = be16 a b := by
  have hfold : crcByte (be16 0x00 a) b = (bitsOf b).foldl BitVec.shiftConcat (be16 0x00 a) := by
    simp [crcByte, bitsOf, crcBit_of_top_clear, getElem_be16]
  rw [hfold]
  apply BitVec.eq_of_getElem_eq
  intro i hlt
  interval_cases i <;> simp [bitsOf, getElem_be16, BitVec.getElem_shiftConcat]

/-- By linearity, a low byte added to the register and the byte shifted in come out of a byte step as the word they spell. -/
theorem crcByte_xor_be16_zero (c : Word16) (a b : Byte) :
    crcByte (c ^^^ be16 0x00 a) b = crcByte c 0x00 ^^^ be16 a b := by
  calc crcByte (c ^^^ be16 0x00 a) b = crcByte (c ^^^ be16 0x00 a) (0x00 ^^^ b) := by simp
    _ = crcByte c 0x00 ^^^ be16 a b := by rw [crcByte_xor, crcByte_be16_zero]

/-- Two bytes shifted in, against two zero bytes shifted in from the same register, add their own word to it. -/
theorem crcByte_crcByte_eq_xor_be16 (c : Word16) (a b : Byte) :
    crcByte (crcByte c a) b = crcByte (crcByte c 0x00) 0x00 ^^^ be16 a b := by
  have hfirst : crcByte c a = crcByte c 0x00 ^^^ be16 0x00 a := by
    simpa [be16] using crcByte_xor_be16_zero c 0x00 a
  rw [hfirst, crcByte_xor_be16_zero]

/-- Two last bytes add their own word to the CRC of the message padded with two zero bytes. -/
theorem crc16_append_pair (m : List Byte) (a b : Byte) : crc16 (m ++ [a, b]) = txCrc m ^^^ be16 a b := by
  simp only [txCrc, crc16_append, List.foldl_cons, List.foldl_nil]
  rw [crcByte_crcByte_eq_xor_be16]

/-- R141's property: the CRC word, added behind its message, cancels itself. -/
theorem crc16_appendCrc (m : List Byte) : crc16 (appendCrc m) = 0x0000 := by
  rw [appendCrc, crc16_append_pair, be16_hi_lo, BitVec.xor_self]
  rfl

/-- Settles O33: the construction is the definition, and the residue is the CRC word added to itself. -/
theorem messageWithItsCrcHasZeroResidue : Obligations.MessageWithItsCrcHasZeroResidue :=
  fun m => ⟨rfl, crc16_appendCrc m⟩

end Sys2Proof.Proofs.CrcResidue
end

section
/-! The decoder's checks over positions of the decoded frame (43_decode_verify.md R160): one lemma for each way steps 3 and 4 end. -/

namespace Sys2Proof.Proofs.DecodeChecks

open Sys2Proof Sys2Proof.Machine

/-- R163's failure over positions: no id was requested, or one of the four header bytes differs. -/
def HeaderMismatch (q : Option Word16) (d : List Byte) : Prop :=
  q = none ∨ d[0]? ≠ some 0x3f ∨ d[1]? ≠ some 0x10 ∨ d[2]? ≠ q.map hi ∨ d[3]? ≠ q.map lo

/-- R167 (a): a decoded frame without a whole header. -/
theorem decodeHeader_of_length_lt {q : Option Word16} {w : Nat} {d : List Byte} (hlen : d.length < 4) :
    decodeHeader q w d = Record.failed .formatErr w := by
  match d, hlen with
  | [], _ | [_], _ | [_, _], _ | [_, _, _], _ => rfl

/-- R163: with a whole header, a mismatch ends the decoding. -/
theorem decodeHeader_of_mismatch {q : Option Word16} {w : Nat} {d : List Byte} (hlen : 4 ≤ d.length)
    (hq : HeaderMismatch q d) : decodeHeader q w d = Record.failed .hdrErr w := by
  match d, q, hlen with
  | _ :: _ :: _ :: _ :: _, none, _ => rfl
  | d0 :: d1 :: d2 :: d3 :: rest, some id, _ =>
    have hne : ¬(d0 = rspHdr0 ∧ d1 = rspHdr1 ∧ d2 = hi id ∧ d3 = lo id) := by
      rintro ⟨rfl, rfl, rfl, rfl⟩
      simp [HeaderMismatch, rspHdr0, rspHdr1] at hq
    exact if_neg hne

/-- R163: a matching header hands the bytes from index 4 on to step 4. -/
theorem decodeHeader_of_match {q : Option Word16} {w : Nat} {d : List Byte} (hlen : 4 ≤ d.length)
    (hq : ¬HeaderMismatch q d) : decodeHeader q w d = decodeFields w (d.drop 4) := by
  match d, q, hlen with
  | _, none, _ => exact absurd (.inl rfl) hq
  | d0 :: d1 :: d2 :: d3 :: rest, some id, _ =>
    have heq : d0 = rspHdr0 ∧ d1 = rspHdr1 ∧ d2 = hi id ∧ d3 = lo id := by
      simpa [HeaderMismatch, rspHdr0, rspHdr1] using hq
    exact if_pos heq

/-- R167 (b): no whole set of field bytes behind the header. -/
theorem decodeFields_of_length_lt {w : Nat} {t : List Byte} (hlen : t.length < 3) :
    decodeFields w t = Record.failed .formatErr w := by
  match t, hlen with
  | [], _ | [_], _ | [_, _], _ => rfl

/-- R164 over positions: with the three field bytes there, the outcome turns on R167 (c) alone. -/
theorem decodeFields_of_le_length {w : Nat} {t : List Byte} (hlen : 3 ≤ t.length) :
    decodeFields w t = if (t.getD 1 0).toNat + 2 > (t.drop 3).length then Record.failed .formatErr w
      else Record.accepted w (extractFields (t.getD 0 0) (t.getD 1 0) (t.getD 2 0) (t.drop 3)) := by
  match t, hlen with
  | _ :: _ :: _ :: _, _ => rfl

/-- Step 4 on a decoded frame: the field bytes stand at 4, 5 and 6, and the mantissa begins at 7. -/
theorem decodeFields_drop_four {w : Nat} {d : List Byte} (hlen : 7 ≤ d.length) :
    decodeFields w (d.drop 4) = if 7 + (d.getD 5 0).toNat + 2 > d.length then Record.failed .formatErr w
      else Record.accepted w (extractFields (d.getD 4 0) (d.getD 5 0) (d.getD 6 0) (d.drop 7)) := by
  have hrest : 3 ≤ (d.drop 4).length := by
    rw [List.length_drop]
    omega
  have hroom : (d.getD 5 0).toNat + 2 > d.length - 7 ↔ 7 + (d.getD 5 0).toNat + 2 > d.length := by omega
  rw [decodeFields_of_le_length hrest]
  simp only [List.getD_eq_getElem?_getD, List.getElem?_drop, List.drop_drop, List.length_drop] at hroom ⊢
  exact if_congr hroom rfl rfl

/-- Settles O44: step 1 by its two outcomes, then one check after the other, each closed by the lemma of the step it ends. -/
theorem decodeChecksInOrder : Obligations.DecodeChecksInOrder := by
  intro f q
  rw [decodeFrame]
  match unescapeSeq f with
  | .formatErr _ => rfl
  | .bytes d w =>
    dsimp only
    split
    · rfl
    · split
      next hshort => exact decodeHeader_of_length_lt hshort
      next hheader =>
        split
        next hq => exact decodeHeader_of_mismatch (not_lt.mp hheader) hq
        next hq =>
          rw [decodeHeader_of_match (not_lt.mp hheader) hq]
          split
          next hshort => exact decodeFields_of_length_lt (by rw [List.length_drop]; omega)
          next hfields => exact decodeFields_drop_four (not_lt.mp hfields)

end Sys2Proof.Proofs.DecodeChecks
end

section
/-! The terminator at the receive accumulator (44_rx_accumulator.md R184): the hand-off of the raw frame and the cleared buffer. -/

namespace Sys2Proof.Proofs.Terminator

open Sys2Proof Sys2Proof.Machine

/-- The hand-off answers a frame whenever every accumulated cell exists and holds a byte (20_memory.md R44). -/
theorem exists_rawFrame_ok {s : State} (hcap : s.rxlen ≤ s.rxCap)
    (hcells : ∀ i < s.rxlen, (Memory.read s.rxbuf i).isSome = true) : ∃ f, rawFrame s = .ok f := by
  choose cell hcell using fun i hi => Option.isSome_iff_exists.mp (hcells i hi)
  refine ⟨List.ofFn fun i : Fin s.rxlen => cell i i.isLt, rawFrame_ok.mpr ⟨List.length_ofFn, fun i hi => ?_⟩⟩
  have hframe : (List.ofFn fun i : Fin s.rxlen => cell i i.isLt)[i]? = some (cell i hi) := by simp [hi]
  exact ⟨hi.trans_le hcap, (hcell i hi).trans hframe.symm⟩

/-- RX.BYTE of the terminator is the accumulator's hand-off (R181). -/
theorem exec_rxByte_frameEnd (s : State) : exec (.rxByte 0x0d) s = acceptEnd s := by
  obtain ⟨hstart, -⟩ | ⟨-, hend⟩ | ⟨-, hne, -⟩ := execRxByte_cases 0x0d s
  · exact absurd hstart (by decide)
  · exact hend
  · exact absurd rfl hne

/-- The empty frame has residue 0, so it passes step 2 and fails step 3 by R167 (a). -/
theorem decodeFrame_nil (q : Option Word16) : decodeFrame [] q = Record.failed .formatErr 0 := by
  have hresidue : decodeFrame [] q = decodeHeader q 0 [] := rfl
  rw [hresidue]
  exact DecodeChecks.decodeHeader_of_length_lt (by decide)

/-- Settles O14: the cells below `rxlen` make a raw frame, both rows hand that frame over, and an empty buffer makes the empty one. -/
theorem terminatorHandsFrameToDecoderAndClears : Obligations.TerminatorHandsFrameToDecoderAndClears := by
  intro s hcap hcells
  obtain ⟨f, hf⟩ := exists_rawFrame_ok hcap hcells
  obtain ⟨hlen, hread⟩ := rawFrame_ok.mp hf
  have hend := acceptEnd_of_rawFrame hf
  refine ⟨f, hlen, fun i hi => (hread i hi).2.symm, (exec_rxByte_frameEnd s).trans hend, hend, fun hzero => ?_⟩
  obtain rfl := List.length_eq_zero_iff.mp (hlen.trans hzero)
  exact decodeFrame_nil s.reqid

end Sys2Proof.Proofs.Terminator
end

section
/-! The command word (30_encoding.md section 3) and the byte classes (section 2): each row by its fields, by match and mask, and the
decoder and the encoder as inverses of each other. -/

namespace Sys2Proof.Proofs.CommandWord

open Sys2Proof Sys2Proof.Machine

/-! ### Words by their fields -/

/-- The high byte of a joined word is the first byte (R9). -/
@[simp] theorem hi_be16 (a b : Byte) : hi (be16 a b) = a := by
  rw [hi, be16, BitVec.extractLsb'_append_eq_left]

/-- The low byte of a joined word is the second byte (R9). -/
@[simp] theorem lo_be16 (a b : Byte) : lo (be16 a b) = b := by
  rw [lo, be16, BitVec.extractLsb'_append_eq_right]

/-- A joined word determines its two bytes. -/
theorem be16_inj {a b c d : Byte} : be16 a b = be16 c d ↔ a = c ∧ b = d :=
  ⟨fun h => ⟨by simpa using congrArg hi h, by simpa using congrArg lo h⟩, fun ⟨ha, hb⟩ => by rw [ha, hb]⟩

/-- A joined word as a number (R9). -/
theorem be16_toNat (a b : Byte) : (be16 a b).toNat = 256 * a.toNat + b.toNat := by
  rw [be16, BitVec.toNat_append, Nat.shiftLeft_eq, Nat.mul_comm a.toNat, ← Nat.two_pow_add_eq_or_of_lt b.isLt]

/-- A command word determines its two fields. -/
theorem cmdWord_inj {op op' : BitVec 4} {arg arg' : Word16} : cmdWord op arg = cmdWord op' arg' ↔ op = op' ∧ arg = arg' :=
  ⟨fun h => ⟨by simpa using congrArg cmdOp h, by simpa using congrArg cmdArg h⟩, fun ⟨ho, ha⟩ => by rw [ho, ha]⟩

/-- Match and mask of a command word go field by field. -/
theorem and_cmdWord_eq_iff (w : CmdWord) (mop op : BitVec 4) (marg arg : Word16) :
    w &&& cmdWord mop marg = cmdWord op arg ↔ cmdOp w &&& mop = op ∧ cmdArg w &&& marg = arg := by
  have hand : w &&& cmdWord mop marg = cmdWord (cmdOp w &&& mop) (cmdArg w &&& marg) := by
    conv_lhs => rw [← cmdWord_cmdOp_cmdArg w]
    exact BitVec.and_append
  rw [hand, cmdWord_inj]

/-- A mask of the high byte tests the high byte. -/
theorem and_ff00_eq_zero_iff (v : Word16) : v &&& 0xff00 = 0x0000 ↔ hi v = 0x00 := by
  have hand : v &&& 0xff00 = be16 (hi v &&& BitVec.allOnes 8) (lo v &&& 0#8) := by
    conv_lhs => rw [← be16_hi_lo v, show (0xff00 : Word16) = be16 (BitVec.allOnes 8) 0#8 by decide]
    exact BitVec.and_append
  rw [hand, show (0x0000 : Word16) = be16 0x00 0x00 by decide, be16_inj, BitVec.and_allOnes, BitVec.and_zero]
  exact and_iff_left rfl

/-- A row without operand: the whole word is fixed (R72). -/
theorem and_fffff_eq_iff (w : CmdWord) (op : BitVec 4) :
    w &&& 0xfffff = cmdWord op 0x0000 ↔ cmdOp w = op ∧ cmdArg w = 0x0000 := by
  rw [show (0xfffff : CmdWord) = cmdWord (BitVec.allOnes 4) (BitVec.allOnes 16) by decide, and_cmdWord_eq_iff,
    BitVec.and_allOnes, BitVec.and_allOnes]

/-- A row with a byte operand: `op` and `arg[15:8]` are fixed (R72). -/
theorem and_fff00_eq_iff (w : CmdWord) (op : BitVec 4) :
    w &&& 0xfff00 = cmdWord op 0x0000 ↔ cmdOp w = op ∧ hi (cmdArg w) = 0x00 := by
  rw [show (0xfff00 : CmdWord) = cmdWord (BitVec.allOnes 4) 0xff00 by decide, and_cmdWord_eq_iff, and_ff00_eq_zero_iff,
    BitVec.and_allOnes]

/-- The row with a word operand: `op` is fixed (R72). -/
theorem and_f0000_eq_iff (w : CmdWord) (op : BitVec 4) : w &&& 0xf0000 = cmdWord op 0x0000 ↔ cmdOp w = op := by
  rw [show (0xf0000 : CmdWord) = cmdWord (BitVec.allOnes 4) 0#16 by decide, and_cmdWord_eq_iff, BitVec.and_allOnes,
    BitVec.and_zero]
  exact and_iff_left rfl

/-- The byte operand is the low byte of the word. -/
theorem lo_cmdArg (w : CmdWord) : lo (cmdArg w) = w.extractLsb' 0 8 := by
  apply BitVec.eq_of_getLsbD_eq
  intro i hlt
  simp [lo, cmdArg, hlt]

/-! ### The decoder on command words -/

/-- What the decoder answers for a command word, row by row (R72), and when no row takes it (R74). -/
theorem decode_cmd_cases (w : CmdWord) :
    (cmdOp w = 0x1 ∧ cmdArg w = 0x0000 ∧ decode (.cmd w) = .instr .crcClr) ∨
    (cmdOp w = 0x2 ∧ hi (cmdArg w) = 0x00 ∧ decode (.cmd w) = .instr (.crcUpd (lo (cmdArg w)))) ∨
    (cmdOp w = 0x3 ∧ cmdArg w = 0x0000 ∧ decode (.cmd w) = .instr .crcRd) ∨
    (cmdOp w = 0x4 ∧ decode (.cmd w) = .instr (.txReq (cmdArg w))) ∨
    (cmdOp w = 0x5 ∧ hi (cmdArg w) = 0x00 ∧ decode (.cmd w) = .instr (.rxByte (lo (cmdArg w)))) ∨
    (¬(cmdOp w = 0x1 ∧ cmdArg w = 0x0000) ∧ ¬(cmdOp w = 0x2 ∧ hi (cmdArg w) = 0x00) ∧
      ¬(cmdOp w = 0x3 ∧ cmdArg w = 0x0000) ∧ cmdOp w ≠ 0x4 ∧ ¬(cmdOp w = 0x5 ∧ hi (cmdArg w) = 0x00) ∧
      ∃ e, decode (.cmd w) = .illegal e) := by
  simp only [decode, decodeCmd, decodeNoArg, decodeByteArg]
  split_ifs with h1 a1 h2 a2 h3 a3 h4 h5 a5
  case pos => exact .inl ⟨h1, a1, rfl⟩
  case pos => exact .inr (.inl ⟨h2, a2, rfl⟩)
  case pos => exact .inr (.inr (.inl ⟨h3, a3, rfl⟩))
  case pos => exact .inr (.inr (.inr (.inl ⟨h4, rfl⟩)))
  case pos => exact .inr (.inr (.inr (.inr (.inl ⟨h5, a5, rfl⟩))))
  -- What is left is refused: either `op` belongs to no row, or the row of `op` forbids this `arg`.
  all_goals simp_all

/-- Settles O1: the masks test the fields, and the rows exclude each other by `op`. -/
theorem commandWordSelectsRowByMatchAndMask : Obligations.CommandWordSelectsRowByMatchAndMask := by
  intro w
  rw [show (0x10000 : CmdWord) = cmdWord 0x1 0x0000 by decide, show (0x20000 : CmdWord) = cmdWord 0x2 0x0000 by decide,
    show (0x30000 : CmdWord) = cmdWord 0x3 0x0000 by decide, show (0x40000 : CmdWord) = cmdWord 0x4 0x0000 by decide,
    show (0x50000 : CmdWord) = cmdWord 0x5 0x0000 by decide]
  simp only [← lo_cmdArg, ne_eq, and_fffff_eq_iff, and_fff00_eq_iff, and_f0000_eq_iff]
  rcases decode_cmd_cases w with
    ⟨ho, ha, hd⟩ | ⟨ho, ha, hd⟩ | ⟨ho, ha, hd⟩ | ⟨ho, hd⟩ | ⟨ho, ha, hd⟩ | ⟨h1, h2, h3, h4, h5, e, hd⟩
  · simp [ho, ha, hd]
  · simp [ho, ha, hd, eq_comm]
  · simp [ho, ha, hd]
  · rw [cmdArg] at hd
    simp [ho, hd, eq_comm]
  · simp [ho, ha, hd, eq_comm]
  · simp only [hd, h1, h2, h3, h4, h5]
    simp

/-- A command word decodes to one of exactly five operations (00_scope.md R7). -/
theorem operation_of_decode_cmd {w : CmdWord} {i : Instr} (h : decode (.cmd w) = .instr i) :
    i = .crcClr ∨ (∃ b, i = .crcUpd b) ∨ i = .crcRd ∨ (∃ id, i = .txReq id) ∨ (∃ b, i = .rxByte b) := by
  rcases decode_cmd_cases w with
    ⟨-, -, hd⟩ | ⟨-, -, hd⟩ | ⟨-, -, hd⟩ | ⟨-, hd⟩ | ⟨-, -, hd⟩ | ⟨-, -, -, -, -, e, hd⟩
  case inr.inr.inr.inr.inr => cases hd.symm.trans h
  all_goals obtain rfl := Decoded.instr.inj (hd.symm.trans h)
  · exact .inl rfl
  · exact .inr (.inl ⟨_, rfl⟩)
  · exact .inr (.inr (.inl rfl))
  · exact .inr (.inr (.inr (.inl ⟨_, rfl⟩)))
  · exact .inr (.inr (.inr (.inr ⟨_, rfl⟩)))

/-- A legal command word is the unit of its instruction. -/
theorem encode_of_decode_cmd {w : CmdWord} {i : Instr} (h : decode (.cmd w) = .instr i) : encode i = .cmd w := by
  rcases decode_cmd_cases w with
    ⟨ho, ha, hd⟩ | ⟨ho, ha, hd⟩ | ⟨ho, ha, hd⟩ | ⟨ho, hd⟩ | ⟨ho, ha, hd⟩ | ⟨-, -, -, -, -, e, hd⟩
  case inr.inr.inr.inr.inr => cases hd.symm.trans h
  all_goals
    obtain rfl := Decoded.instr.inj (hd.symm.trans h)
    rw [encode]
  · rw [← ho, ← ha, cmdWord_cmdOp_cmdArg]
  · rw [← ho, byteArg_lo ha, cmdWord_cmdOp_cmdArg]
  · rw [← ho, ← ha, cmdWord_cmdOp_cmdArg]
  · rw [← ho, cmdWord_cmdOp_cmdArg]
  · rw [← ho, byteArg_lo ha, cmdWord_cmdOp_cmdArg]

/-! ### The byte classes -/

/-- The class of a received byte, by the three cases of R66. -/
theorem decodeRxb_cases (b : Byte) :
    (b = 0x40 ∧ decodeRxb b = .rxbStart) ∨ (b = 0x0d ∧ decodeRxb b = .rxbEnd) ∨
    (b ≠ 0x40 ∧ b ≠ 0x0d ∧ decodeRxb b = .rxbData b) := by
  unfold decodeRxb
  split_ifs with h1 h2
  · exact .inl ⟨h1, rfl⟩
  · exact .inr (.inl ⟨h2, rfl⟩)
  · exact .inr (.inr ⟨h1, h2, rfl⟩)

/-- The class of a payload byte that is not reserved (R67). -/
theorem decodeTxb_of_not_reserved {b : Byte} (h : isReserved b = false) : decodeTxb b = .txbLit b := by
  have hne := (isReserved_iff b).not.mp (by simp [h])
  simp only [not_or] at hne
  obtain ⟨h06, h0d, h1b, h40, h80⟩ := hne
  rw [decodeTxb, if_neg h06, if_neg h0d, if_neg h1b, if_neg h40, if_neg h80]

/-- A received byte is the unit of its class, and its class is well formed. -/
theorem decodeRxb_spec (b : Byte) : encode (decodeRxb b) = .rxb b ∧ (decodeRxb b).wf = true := by
  obtain ⟨rfl, hd⟩ | ⟨rfl, hd⟩ | ⟨h1, h2, hd⟩ := decodeRxb_cases b
  · exact ⟨rfl, rfl⟩
  · exact ⟨rfl, rfl⟩
  · rw [hd]
    exact ⟨rfl, by simpa [Instr.wf, rxStart, frameEnd] using And.intro h1 h2⟩

/-- A payload byte is the unit of its class, and its class is well formed. -/
theorem decodeTxb_spec (b : Byte) : encode (decodeTxb b) = .txb b ∧ (decodeTxb b).wf = true := by
  cases h : isReserved b with
  | false =>
    rw [decodeTxb_of_not_reserved h]
    exact ⟨rfl, by rw [Instr.wf, h]; rfl⟩
  | true => obtain rfl | rfl | rfl | rfl | rfl := (isReserved_iff b).mp h <;> exact ⟨rfl, rfl⟩

/-- A raw-frame byte is the unit of its class where no byte follows a literal, and its class is well formed. -/
theorem decodeDeb_spec (b : Byte) (next : Option Byte) :
    encode (decodeDeb b next) = .deb b (if b = 0x1b then next else none) ∧ (decodeDeb b next).wf = true := by
  by_cases hb : b = 0x1b
  · subst hb
    exact ⟨rfl, rfl⟩
  · rw [decodeDeb, if_neg hb, if_neg hb]
    exact ⟨rfl, bne_iff_ne.mpr hb⟩

/-- Whatever decodes is well formed (30_encoding.md section 2). -/
theorem wf_of_decode {c : Code} {i : Instr} (h : decode c = .instr i) : i.wf = true := by
  cases c with
  | cmd w => obtain rfl | ⟨b, rfl⟩ | rfl | ⟨id, rfl⟩ | ⟨b, rfl⟩ := operation_of_decode_cmd h <;> rfl
  | rxb b => exact Decoded.instr.inj h ▸ (decodeRxb_spec b).2
  | txb b => exact Decoded.instr.inj h ▸ (decodeTxb_spec b).2
  | deb b next => exact Decoded.instr.inj h ▸ (decodeDeb_spec b next).2

/-- Settles O3: stage by stage, the unit of what was decoded. -/
theorem encodeOfDecodeIsTheUnit : Obligations.EncodeOfDecodeIsTheUnit :=
  ⟨fun _ _ => wf_of_decode, fun _ _ => encode_of_decode_cmd,
    fun b _ h => Decoded.instr.inj h ▸ (decodeRxb_spec b).1, fun b _ h => Decoded.instr.inj h ▸ (decodeTxb_spec b).1,
    fun b next _ h => Decoded.instr.inj h ▸ (decodeDeb_spec b next).1⟩

/-- The decoder on a command word written by its fields (R72). -/
theorem decode_cmdWord_byteArg (b : Byte) :
    decode (.cmd (cmdWord 0x2 (byteArg b))) = .instr (.crcUpd b) ∧
    decode (.cmd (cmdWord 0x5 (byteArg b))) = .instr (.rxByte b) := by
  simp [decode, decodeCmd, decodeByteArg]

/-- Every id is legal in the command word of TX.REQ (R73). -/
theorem decode_cmdWord_txReq (id : Word16) : decode (.cmd (cmdWord 0x4 id)) = .instr (.txReq id) := by
  simp [decode, decodeCmd]

/-- Settles O2: the operand rows by their fields; a default row because its operand is none of the specific rows' bytes. -/
theorem decodeOfEncodeIsTheInstruction : Obligations.DecodeOfEncodeIsTheInstruction := by
  intro i hwf
  cases i with
  | crcUpd b => exact (decode_cmdWord_byteArg b).1
  | rxByte b => exact (decode_cmdWord_byteArg b).2
  | txReq id => exact decode_cmdWord_txReq id
  | rxbData b =>
    obtain ⟨h1, h2⟩ : b ≠ 0x40 ∧ b ≠ 0x0d := by simpa [Instr.wf, rxStart, frameEnd] using hwf
    rw [encode, decode, decodeRxb, if_neg h1, if_neg h2]
  | txbLit b =>
    have hb : isReserved b = false := by simpa [Instr.wf] using hwf
    rw [encode, decode, decodeTxb_of_not_reserved hb]
  | debLit b =>
    have hb : b ≠ 0x1b := bne_iff_ne.mp hwf
    rw [encode, decode, decodeDeb, if_neg hb]
  | crcClr | crcRd | rxbStart | rxbEnd | txbEsc06 | txbEsc0D | txbEsc1B | txbEsc40 | txbEsc80 | debEsc _ => rfl

/-- Settles O4: each word is a closed term of the decoder. -/
theorem specWordsDecodeToTheirRows : Obligations.SpecWordsDecodeToTheirRows := by
  unfold Obligations.SpecWordsDecodeToTheirRows
  decide

/-! ### The step -/

/-- A step with a legal command word at the front runs its instruction. -/
theorem step_of_decode_instr {s : State} {w : CmdWord} {rest : List Input} {i : Instr} (hp : s.pending = .cmd w :: rest)
    (hd : decode (.cmd w) = .instr i) : step s = exec i { s with pending := rest } := by
  simp only [step, hp, invoke, hd]

/-- A step with an ill-formed command word at the front refuses it (R74). -/
theorem step_of_decode_illegal {s : State} {w : CmdWord} {rest : List Input} {e : DecodeError}
    (hp : s.pending = .cmd w :: rest) (hd : decode (.cmd w) = .illegal e) :
    step s = .next ({ s with pending := rest } : State).refuse := by
  simp only [step, hp, invoke, hd]

/-- Settles O5: the three kinds of front of the queue, and the five operations. -/
theorem stepRunsTheDecodedInstruction : Obligations.StepRunsTheDecodedInstruction :=
  ⟨fun _ _ _ _ => step_of_decode_instr, fun _ _ _ _ => step_of_decode_illegal, fun s hp => by simp only [step, hp],
    fun _ _ => operation_of_decode_cmd⟩

/-- Settles O6: by the last clause of the table, a word that matches no row is illegal. -/
theorem illegalCommandWordHasNoEffect : Obligations.IllegalCommandWordHasNoEffect := by
  intro s w rest hp h1 h2 h3 h4 h5
  obtain ⟨-, -, -, -, -, hillegal⟩ := commandWordSelectsRowByMatchAndMask w
  obtain ⟨e, hd⟩ := hillegal.mpr ⟨h1, h2, h3, h4, h5⟩
  exact step_of_decode_illegal hp hd

/-- Settles O7: the reset event takes every field but the capacity and the queue from the reset state. -/
theorem resetEventPutsResetValues : Obligations.ResetEventPutsResetValues :=
  ⟨fun s rest hp => ⟨({ s with pending := rest } : State).resetEvent, by simp only [step, hp],
      rfl, rfl, rfl, rfl, rfl, rfl, rfl, rfl⟩,
    rfl, rfl, rfl, rfl, rxCap_pos⟩

end Sys2Proof.Proofs.CommandWord
end

section
/-! What each instruction does (10_state.md section 1): the rows that take no received byte by one equation, the rows of the receive
accumulator by the class of their byte. -/

namespace Sys2Proof.Proofs.Effects

open Sys2Proof Sys2Proof.Machine

/-! ### Instructions that take no received byte -/

/-- The id latched after an instruction, by its name alone (10_state.md R22): only TX.REQ latches one. -/
def latchedId (q : Option Word16) : Instr → Option Word16
  | .txReq id => some id
  | _ => q

/-- The result of an instruction that takes no received byte, given the `crc` it finds. -/
def ownResult (c : Word16) : Instr → Result
  | .crcRd => .word c
  | .txbEsc06 => .image (escapedPair 0x06)
  | .txbEsc0D => .image (escapedPair 0x0d)
  | .txbEsc1B => .image (escapedPair 0x1b)
  | .txbEsc40 => .image (escapedPair 0x40)
  | .txbEsc80 => .image (escapedPair 0x80)
  | .txbLit b => .image [b]
  | .debEsc (some n) => .unescaped (complement n) (anomaly (complement n))
  | .debEsc none => .record (Record.failed .formatErr 0)
  | .debLit b => .unescaped b 0
  | _ => .nothing

/-- An instruction that takes no received byte completes: its effect on `crc`, the id it latches, what it emits, and one result. -/
theorem exec_of_not_received {i : Instr} (h : receivedByte i = none) (s : State) :
    exec i s = .next { s with
      crc := crcEffect s.crc i, reqid := latchedId s.reqid i, tx := s.tx ++ emitted i,
      results := s.results ++ [ownResult s.crc i] } := by
  cases i with
  | rxByte _ | rxbStart | rxbEnd | rxbData _ => cases h
  | txReq id => rfl
  | debEsc next =>
    rw [emitted, List.append_nil]
    cases next <;> rfl
  | crcClr | crcUpd _ | crcRd | txbEsc06 | txbEsc0D | txbEsc1B | txbEsc40 | txbEsc80 | txbLit _ | debLit _ =>
    rw [emitted, List.append_nil]
    rfl

/-- Settles O9: the three CRC operations are their equations. -/
theorem crcOperationsCompleteAndChangeOnlyCrc : Obligations.CrcOperationsCompleteAndChangeOnlyCrc :=
  ⟨fun _ => rfl, fun _ _ => rfl, fun _ => rfl⟩

/-- Settles O10: every id stands in its command word, and TX.REQ is its equation. -/
theorem txReqEmitsOneFrameAndLatchesId : Obligations.TxReqEmitsOneFrameAndLatchesId :=
  fun id s => ⟨CommandWord.decode_cmdWord_txReq id, exec_of_not_received rfl s⟩

/-- The wire image on the constants of R120 (41_escape.md R121). -/
theorem escapeByte_eq (b : Byte) :
    escapeByte b = if b ∈ [0x06, 0x0d, 0x1b, 0x40, 0x80] then [0x1b, b ^^^ 0xff] else [b] := by
  simp only [escapeByte, isReserved, List.contains_iff_mem]
  rfl

/-- Settles O15: each escaper row delivers its image, the rows are the cases of R67, and the images those of R121. -/
theorem escaperRowsOutputTheWireImage : Obligations.EscaperRowsOutputTheWireImage :=
  ⟨fun _ => rfl, fun _ => rfl, fun _ => rfl, fun _ => rfl, fun _ => rfl, fun _ _ => rfl, fun _ => rfl, escapeByte_eq⟩

/-- Settles O16: each de-escaper row delivers its byte with the anomaly of R126. -/
theorem deescaperRowsOutputTheDecodedByte : Obligations.DeescaperRowsOutputTheDecodedByte := by
  refine ⟨fun n s => ?_, fun _ => rfl, fun _ _ => rfl, fun b next => ?_⟩
  · rw [← UnescapeScan.anomaly_complement_eq]
    rfl
  · rw [decode, decodeDeb]

/-! ### Instructions of the receive accumulator -/

/-- RX.BYTE does what the class of its byte does (R66). -/
theorem exec_rxByte (b : Byte) (s : State) : exec (.rxByte b) s = exec (decodeRxb b) s := by
  obtain ⟨rfl, h⟩ | ⟨rfl, h⟩ | ⟨h1, h2, h⟩ := execRxByte_cases b s
  · exact h
  · exact h
  · rw [decodeRxb, if_neg h1, if_neg h2]
    exact h

/-- Settles O17: the class is the decoder's answer, and the three classes are the three cases of R66. -/
theorem rxByteRunsTheClassOfItsByte : Obligations.RxByteRunsTheClassOfItsByte := by
  intro b
  refine ⟨decodeRxb b, rfl, exec_rxByte b, ?_⟩
  obtain ⟨rfl, hd⟩ | ⟨rfl, hd⟩ | ⟨h1, h2, hd⟩ := CommandWord.decodeRxb_cases b
  · decide
  · decide
  · rw [hd]
    exact ⟨iff_of_false h1 nofun, iff_of_false h2 nofun, iff_of_true ⟨h1, h2⟩ rfl⟩

/-- An instruction takes no received byte, or it is one of the three accumulator operations on the byte it takes. -/
theorem exec_cases (i : Instr) :
    receivedByte i = none ∨
    (receivedByte i = some 0x40 ∧ ∀ s, exec i s = acceptStart s) ∨
    (receivedByte i = some 0x0d ∧ ∀ s, exec i s = acceptEnd s) ∨
    ∃ b, receivedByte i = some b ∧ (i.wf = true → b ≠ 0x40 ∧ b ≠ 0x0d) ∧ ∀ s, exec i s = acceptData b s := by
  cases i with
  | rxByte b =>
    obtain ⟨rfl, hd⟩ | ⟨rfl, hd⟩ | ⟨h1, h2, hd⟩ := CommandWord.decodeRxb_cases b
    · exact .inr (.inl ⟨rfl, exec_rxByte 0x40⟩)
    · exact .inr (.inr (.inl ⟨rfl, exec_rxByte 0x0d⟩))
    · exact .inr (.inr (.inr ⟨b, rfl, fun _ => ⟨h1, h2⟩, fun s => by rw [exec_rxByte, hd]; rfl⟩))
  | rxbStart => exact .inr (.inl ⟨rfl, fun _ => rfl⟩)
  | rxbEnd => exact .inr (.inr (.inl ⟨rfl, fun _ => rfl⟩))
  | rxbData b =>
    exact .inr (.inr (.inr ⟨b, rfl, fun hwf => by simpa [Instr.wf, rxStart, frameEnd] using hwf, fun _ => rfl⟩))
  | crcClr | crcUpd _ | crcRd | txReq _ | txbEsc06 | txbEsc0D | txbEsc1B | txbEsc40 | txbEsc80 | txbLit _ | debEsc _ | debLit _ =>
    exact .inl rfl

/-- RX.BYTE of a data byte is the accumulator's append (R183). -/
theorem exec_rxByte_data {b : Byte} (h1 : b ≠ 0x40) (h2 : b ≠ 0x0d) (s : State) : exec (.rxByte b) s = acceptData b s := by
  rw [exec_rxByte, decodeRxb, if_neg h1, if_neg h2]
  rfl

/-- Settles O11: the class of `0x80` is data, and the class of `0x40` is the start marker. -/
theorem startMarkerIsDiscarded : Obligations.StartMarkerIsDiscarded :=
  fun s => ⟨exec_rxByte 0x80 s, exec_rxByte 0x40 s, rfl⟩

/-- Settles O12: the state after an append, field by field. -/
theorem dataByteIsAppendedBelowCapacity : Obligations.DataByteIsAppendedBelowCapacity := by
  intro b s h1 h2 hlt
  have hdata := acceptData_of_lt (b := b) hlt
  exact ⟨_, (exec_rxByte_data h1 h2 s).trans hdata, hdata, Memory.read_write_same .., fun a ha => Memory.read_write_other _ _ ha,
    rfl, rfl, rfl, rfl, rfl, rfl, rfl⟩

/-- Settles O13: at the capacity the append ends the frame. -/
theorem dataByteAtFullBufferOverflows : Obligations.DataByteAtFullBufferOverflows := by
  intro b s h1 h2 heq
  have hdata := acceptData_of_eq (b := b) heq
  exact ⟨(exec_rxByte_data h1 h2 s).trans hdata, hdata⟩

/-! ### Where the machine stops -/

/-- A data byte above the capacity has no cell to go to (20_memory.md R43). -/
theorem acceptData_of_gt {b : Byte} {s : State} (h : s.rxCap < s.rxlen) : acceptData b s = .fault (.noSuchCell s.rxlen) := by
  have hw : memWrite s s.rxlen b = .error (.noSuchCell s.rxlen) := memWrite_error.mpr ⟨h.le, rfl⟩
  simp only [acceptData, Nat.ne_of_gt h, if_false, hw]

/-- A terminator stops at the first cell of the frame that cannot be read. -/
theorem acceptEnd_of_error {s : State} {k : Nat} {f : Fault} (hk : k < s.rxlen)
    (hbelow : ∀ a < k, a < s.rxCap ∧ (Memory.read s.rxbuf a).isSome = true) (hf : memRead s k = .error f) :
    acceptEnd s = .fault f := by
  have hreadable : ∀ a, 0 ≤ a → a < k → ∃ b, memRead s a = .ok b := by
    intro a _ ha
    obtain ⟨hcap, hsome⟩ := hbelow a ha
    obtain ⟨b, hb⟩ := Option.isSome_iff_exists.mp hsome
    exact ⟨b, memRead_ok.mpr ⟨hcap, hb⟩⟩
  have hframe : rawFrame s = .error f := memReads_of_error hf (Nat.zero_le k) (by omega) hreadable
  simp only [acceptEnd, hframe]

/-- No instruction is refused. -/
theorem exec_ne_refused (i : Instr) (s : State) (r : Refusal) : exec i s ≠ .refused r := by
  intro h
  obtain hi | ⟨-, hi⟩ | ⟨-, hi⟩ | ⟨b, -, -, hi⟩ := exec_cases i
  · cases (exec_of_not_received hi s).symm.trans h
  · cases (hi s).symm.trans h
  · rw [hi, acceptEnd] at h
    split at h <;> cases h
  · rw [hi, acceptData] at h
    split_ifs at h
    split at h <;> cases h

/-- A fault names a cell the accumulator cannot use. -/
theorem cell_of_exec_fault {i : Instr} {s : State} {f : Fault} (h : exec i s = .fault f) : ∃ k ≤ s.rxlen,
    (f = .noSuchCell k ∧ s.rxCap ≤ k) ∨ (f = .unwrittenCell k ∧ k < s.rxlen ∧ Memory.read s.rxbuf k = none) := by
  obtain hi | ⟨-, hi⟩ | ⟨-, hi⟩ | ⟨b, -, -, hi⟩ := exec_cases i
  · cases (exec_of_not_received hi s).symm.trans h
  · cases (hi s).symm.trans h
  · obtain ⟨k, hk, hread⟩ := acceptEnd_fault ((hi s).symm.trans h)
    obtain ⟨hcap, hf⟩ | ⟨-, hnone, hf⟩ := memRead_error.mp hread
    · exact ⟨k, hk.le, .inl ⟨hf, hcap⟩⟩
    · exact ⟨k, hk.le, .inr ⟨hf, hk, hnone⟩⟩
  · obtain ⟨hcap, hf⟩ := acceptData_fault ((hi s).symm.trans h)
    exact ⟨s.rxlen, le_rfl, .inl ⟨hf, hcap.le⟩⟩

/-- Settles O18: the three stops by the memory operation that raises each, and the converse from the accumulator's faults. -/
theorem accumulatorStopsWhereNoCellExists : Obligations.AccumulatorStopsWhereNoCellExists := by
  refine ⟨fun b s h1 h2 hgt => ?_, fun s k hk hbelow hcap => ?_, fun s k hk hbelow hcap hnone => ?_,
    fun _ _ _ => cell_of_exec_fault, exec_ne_refused⟩
  · exact ⟨(exec_rxByte_data h1 h2 s).trans (acceptData_of_gt hgt), acceptData_of_gt hgt⟩
  · have hend := acceptEnd_of_error hk hbelow (memRead_error.mpr (.inl ⟨hcap, rfl⟩))
    exact ⟨(exec_rxByte 0x0d s).trans hend, hend⟩
  · have hend := acceptEnd_of_error hk hbelow (memRead_error.mpr (.inr ⟨hcap, hnone, rfl⟩))
    exact ⟨(exec_rxByte 0x0d s).trans hend, hend⟩

end Sys2Proof.Proofs.Effects
end

section
/-! The invariant of the receive buffer (10_state.md R25, 44_rx_accumulator.md R186): it holds at reset, every step keeps it, and no
instruction stops in a state that meets it. -/

namespace Sys2Proof.Proofs.Invariant

open Sys2Proof Sys2Proof.Machine

/-! ### What keeps the invariant -/

/-- The invariant speaks of the capacity, the length and the cells only. -/
theorem inv_of_same_buffer {s t : State} (h : s.Inv) (hcap : t.rxCap = s.rxCap) (hlen : t.rxlen = s.rxlen)
    (hbuf : t.rxbuf = s.rxbuf) : t.Inv := by
  obtain ⟨hpos, hle, hwf, hlt, hdata⟩ := h
  exact ⟨by rw [hcap]; exact hpos, by rw [hcap, hlen]; exact hle, by rw [hbuf]; exact hwf, by rw [hcap, hbuf]; exact hlt,
    by rw [hlen, hbuf]; exact hdata⟩

/-- The end of a frame leaves an empty buffer (60_exceptions.md R210). -/
theorem endFrame_inv {s : State} (h : s.Inv) (r : Record) : (s.endFrame r).Inv :=
  ⟨h.cap_pos, Nat.zero_le _, h.cells_wf, h.cells_lt, fun _ hi => absurd hi (Nat.not_lt_zero _)⟩

/-- An empty buffer without cells meets the invariant whatever the capacity. -/
theorem inv_of_no_cells {s : State} (hpos : 1 ≤ s.rxCap) (hlen : s.rxlen = 0) (hbuf : s.rxbuf = []) : s.Inv where
  cap_pos := hpos
  len_le := hlen ▸ Nat.zero_le _
  cells_wf := hbuf ▸ Memory.wf_nil
  cells_lt := by simp [hbuf]
  data := by simp [hlen]

/-- A data byte, appended or dropped, keeps the invariant: the one new cell is at `rxlen` and holds the byte (R183). -/
theorem acceptData_inv {s t : State} {b : Byte} (h : s.Inv) (h1 : b ≠ 0x40) (h2 : b ≠ 0x0d) (ht : acceptData b s = .next t) :
    t.Inv := by
  obtain ⟨-, rfl⟩ | ⟨hlt, rfl⟩ := acceptData_next ht
  · exact endFrame_inv h _
  · refine ⟨h.cap_pos, hlt, Memory.write_wf _ _ h.cells_wf, fun c hc => ?_, fun i hi => ?_⟩
    · obtain hnew | hold := Memory.mem_write hc
      · rw [hnew]
        exact hlt
      · exact h.cells_lt c hold
    · change dataCell (Memory.read (Memory.write s.rxbuf s.rxlen b) i) = true
      obtain hold | rfl := Nat.lt_succ_iff_lt_or_eq.mp hi
      · rw [Memory.read_write_other _ _ hold.ne]
        exact h.data i hold
      · rw [Memory.read_write_same]
        simpa [dataCell, rxStart, frameEnd] using And.intro h1 h2

/-- Every well-formed instruction keeps the invariant. -/
theorem exec_inv {i : Instr} {s t : State} (hwf : i.wf = true) (h : s.Inv) (ht : exec i s = .next t) : t.Inv := by
  obtain hi | ⟨-, hi⟩ | ⟨-, hi⟩ | ⟨b, -, hb, hi⟩ := Effects.exec_cases i
  · obtain rfl := Host.Outcome.next.inj ((Effects.exec_of_not_received hi s).symm.trans ht)
    exact inv_of_same_buffer h rfl rfl rfl
  · obtain rfl := Host.Outcome.next.inj ((hi s).symm.trans ht)
    exact inv_of_same_buffer h rfl rfl rfl
  · obtain ⟨f, -, rfl⟩ := acceptEnd_next ((hi s).symm.trans ht)
    exact endFrame_inv h _
  · obtain ⟨h1, h2⟩ := hb hwf
    exact acceptData_inv h h1 h2 ((hi s).symm.trans ht)

/-! ### The obligations -/

/-- Settles O19: right after reset there are no cells. -/
theorem invariantHoldsAtReset : Obligations.InvariantHoldsAtReset :=
  inv_of_no_cells rxCap_pos rfl rfl

/-- Settles O20: a reset event leaves no cells, a refusal leaves the buffer alone, and what runs is well formed. -/
theorem stepKeepsTheInvariant : Obligations.StepKeepsTheInvariant := by
  intro s t h ht
  obtain ⟨-, hs⟩ | ⟨rest, -, hs⟩ | ⟨w, rest, -, hs⟩ := step_cases s
  · obtain rfl := Host.Outcome.next.inj (hs.symm.trans ht)
    exact h
  · obtain rfl := Host.Outcome.next.inj (hs.symm.trans ht)
    exact inv_of_no_cells h.cap_pos rfl rfl
  · have hrest : State.Inv { s with pending := rest } := inv_of_same_buffer h rfl rfl rfl
    obtain ⟨i, hd, hi⟩ | ⟨e, -, he⟩ := invoke_cases w { s with pending := rest }
    · exact exec_inv (CommandWord.wf_of_decode hd) hrest ((hs.trans hi).symm.trans ht)
    · obtain rfl := Host.Outcome.next.inj ((hs.trans he).symm.trans ht)
      exact inv_of_same_buffer hrest rfl rfl rfl

/-- Under the invariant the accumulated cells make a raw frame. -/
theorem exists_rawFrame {s : State} (h : s.Inv) : ∃ f, rawFrame s = .ok f := by
  refine Terminator.exists_rawFrame_ok h.len_le fun i hi => ?_
  have hcell := h.data i hi
  cases hr : Memory.read s.rxbuf i with
  | some b => rfl
  | none => rw [hr] at hcell; cases hcell

/-- Settles O21: a terminator finds its frame, and a data byte finds a cell or a full buffer. -/
theorem everyInstructionCompletes : Obligations.EveryInstructionCompletes := by
  intro i s h
  obtain hi | ⟨-, hi⟩ | ⟨-, hi⟩ | ⟨b, -, -, hi⟩ := Effects.exec_cases i
  · exact ⟨_, Effects.exec_of_not_received hi s⟩
  · exact ⟨_, hi s⟩
  · obtain ⟨f, hf⟩ := exists_rawFrame h
    exact ⟨_, (hi s).trans (acceptEnd_of_rawFrame hf)⟩
  · obtain hlt | heq := h.len_le.lt_or_eq
    · exact ⟨_, (hi s).trans (acceptData_of_lt hlt)⟩
    · exact ⟨_, (hi s).trans (acceptData_of_eq heq)⟩

/-- Under the invariant a step answers a next state. -/
theorem exists_step {s : State} (h : s.Inv) : ∃ t, step s = .next t := by
  obtain ⟨-, hs⟩ | ⟨rest, -, hs⟩ | ⟨w, rest, -, hs⟩ := step_cases s
  · exact ⟨_, hs⟩
  · exact ⟨_, hs⟩
  · obtain ⟨i, -, hi⟩ | ⟨e, -, he⟩ := invoke_cases w { s with pending := rest }
    · obtain ⟨t, ht⟩ := everyInstructionCompletes i { s with pending := rest } (inv_of_same_buffer h rfl rfl rfl)
      exact ⟨t, hs.trans (hi.trans ht)⟩
    · exact ⟨_, hs.trans he⟩

/-- A run takes its first step and then the rest. -/
theorem run_succ_of_step {n : Nat} {s t : State} (h : step s = .next t) :
    Host.Core.run Sys2Proof.core (n + 1) s = Host.Core.run Sys2Proof.core n t := by
  simp only [Host.Core.run, Sys2Proof.core, h]

/-- Settles O22: by induction on the number of steps, progress and preservation at each. -/
theorem noSequenceMakesTheBlockStuck : Obligations.NoSequenceMakesTheBlockStuck := by
  intro n
  induction n with
  | zero => exact fun s h => ⟨s, rfl, h⟩
  | succ n ih =>
    intro s h
    obtain ⟨u, hu⟩ := exists_step h
    obtain ⟨t, ht, hinv⟩ := ih u (stepKeepsTheInvariant s u h hu)
    exact ⟨t, (run_succ_of_step hu).trans ht, hinv⟩

end Sys2Proof.Proofs.Invariant
end

section
/-! Who writes and who reads each element of the state (10_state.md section 1): the frame of every instruction, what the receive
side depends on, and sequences of operations. -/

namespace Sys2Proof.Proofs.Frame

open Sys2Proof Sys2Proof.Machine

/-! ### Written by -/

/-- An instruction that takes a received byte is none of those that write `crc` or `reqid` or emit (10_state.md R20). -/
theorem effects_of_received {i : Instr} {b : Byte} (h : receivedByte i = some b) (c : Word16) :
    crcEffect c i = c ∧ emitted i = [] ∧ ∀ id, i ≠ .txReq id := by
  cases i with
  | rxByte _ | rxbStart | rxbEnd | rxbData _ => exact ⟨rfl, rfl, nofun⟩
  | crcClr | crcUpd _ | crcRd | txReq _ | txbEsc06 | txbEsc0D | txbEsc1B | txbEsc40 | txbEsc80 | txbLit _ | debEsc _ | debLit _ =>
    cases h

/-- The frame of an instruction that takes a received byte: only the cells, the length and one record. -/
theorem exec_received_next {i : Instr} {s t : State} {b : Byte} (hb : receivedByte i = some b) (h : exec i s = .next t) :
    ∃ m n r, t = { s with rxbuf := m, rxlen := n, results := s.results ++ [.record r] } := by
  obtain hi | ⟨-, hi⟩ | ⟨-, hi⟩ | ⟨b, -, -, hi⟩ := Effects.exec_cases i
  · cases hb.symm.trans hi
  · exact ⟨s.rxbuf, s.rxlen, Record.noEvent, (Host.Outcome.next.inj ((hi s).symm.trans h)).symm⟩
  · obtain ⟨f, -, ht⟩ := acceptEnd_next ((hi s).symm.trans h)
    exact ⟨s.rxbuf, 0, _, ht⟩
  · obtain ⟨-, ht⟩ | ⟨-, ht⟩ := acceptData_next ((hi s).symm.trans h)
    · exact ⟨s.rxbuf, 0, _, ht⟩
    · exact ⟨_, _, _, ht⟩

/-- What every instruction does to the registers and the streams outside the receive buffer. -/
theorem exec_next {i : Instr} {s t : State} (h : exec i s = .next t) :
    t.crc = crcEffect s.crc i ∧ t.tx = s.tx ++ emitted i ∧ t.reqid = Effects.latchedId s.reqid i ∧ t.rxCap = s.rxCap ∧
    t.pending = s.pending ∧ ∃ r, t.results = s.results ++ [r] := by
  cases hb : receivedByte i with
  | none =>
    obtain rfl := Host.Outcome.next.inj ((Effects.exec_of_not_received hb s).symm.trans h)
    exact ⟨rfl, rfl, rfl, rfl, rfl, _, rfl⟩
  | some b =>
    obtain ⟨m, n, r, rfl⟩ := exec_received_next hb h
    obtain ⟨hcrc, htx, hid⟩ := effects_of_received hb s.crc
    refine ⟨hcrc.symm, by rw [htx, List.append_nil], ?_, rfl, rfl, _, rfl⟩
    rw [Effects.latchedId]
    exact hid

/-- What an instruction does to the cells and the length, by the byte it takes (44_rx_accumulator.md R182 to R184). -/
theorem exec_buffer {i : Instr} {s t : State} (h : exec i s = .next t) :
    ((receivedByte i = none ∨ receivedByte i = some 0x40 ∧ t.results = s.results ++ [.record Record.noEvent]) ∧
      t.rxbuf = s.rxbuf ∧ t.rxlen = s.rxlen) ∨
    (receivedByte i = some 0x0d ∧ t.rxbuf = s.rxbuf ∧ t.rxlen = 0) ∨
    ∃ b, receivedByte i = some b ∧ (i.wf = true → b ≠ 0x40 ∧ b ≠ 0x0d) ∧
      ((s.rxlen = s.rxCap ∧ t.rxbuf = s.rxbuf ∧ t.rxlen = 0) ∨
        (s.rxlen < s.rxCap ∧ t.rxbuf = Memory.write s.rxbuf s.rxlen b ∧ t.rxlen = s.rxlen + 1 ∧
          t.results = s.results ++ [.record Record.noEvent])) := by
  obtain hi | ⟨hb, hi⟩ | ⟨hb, hi⟩ | ⟨b, hb, hwf, hi⟩ := Effects.exec_cases i
  · obtain rfl := Host.Outcome.next.inj ((Effects.exec_of_not_received hi s).symm.trans h)
    exact .inl ⟨.inl hi, rfl, rfl⟩
  · obtain rfl := Host.Outcome.next.inj ((hi s).symm.trans h)
    exact .inl ⟨.inr ⟨hb, rfl⟩, rfl, rfl⟩
  · obtain ⟨f, -, rfl⟩ := acceptEnd_next ((hi s).symm.trans h)
    exact .inr (.inl ⟨hb, rfl, rfl⟩)
  · obtain ⟨hcap, rfl⟩ | ⟨hcap, rfl⟩ := acceptData_next ((hi s).symm.trans h)
    · exact .inr (.inr ⟨b, hb, hwf, .inl ⟨hcap, rfl, rfl⟩⟩)
    · exact .inr (.inr ⟨b, hb, hwf, .inr ⟨hcap, rfl, rfl, rfl⟩⟩)

/-- Settles O23: the registers and streams by `exec_next`, the buffer by `exec_buffer`. -/
theorem eachElementHasOnlyItsWriters : Obligations.EachElementHasOnlyItsWriters := by
  intro i s t hwf h
  obtain ⟨hcrc, htx, hreqid, hcap, hpending, hresult⟩ := exec_next h
  refine ⟨hcrc, htx, fun id hi => by rw [hreqid, hi, Effects.latchedId], fun hi => by rw [hreqid, Effects.latchedId]; exact hi,
    fun hb => ?_, fun hb => ?_, fun a ha => ?_, hcap, hpending, hresult⟩
  · obtain ⟨-, hbuf, hlen⟩ | ⟨hend, -, -⟩ | ⟨b, hdata, hne, -⟩ := exec_buffer h
    · exact ⟨hlen, fun a => by rw [hbuf]⟩
    · simp [hend] at hb
    · simp only [hdata, Option.some.injEq, reduceCtorEq, false_or] at hb
      exact absurd hb (hne hwf).1
  · obtain ⟨-, hbuf, -⟩ | ⟨-, hbuf, -⟩ | ⟨b, hdata, hne, ⟨-, hbuf, -⟩ | ⟨hlt, -, -, -⟩⟩ := exec_buffer h
    · exact fun a => by rw [hbuf]
    · exact fun a => by rw [hbuf]
    · exact fun a => by rw [hbuf]
    · simp only [hdata, Option.some.injEq, hlt.ne, or_false] at hb
      exact absurd hb (hne hwf).2
  · obtain ⟨-, hbuf, -⟩ | ⟨-, hbuf, -⟩ | ⟨b, -, -, ⟨-, hbuf, -⟩ | ⟨-, hbuf, -, -⟩⟩ := exec_buffer h
    · rw [hbuf]
    · rw [hbuf]
    · rw [hbuf]
    · rw [hbuf, Memory.read_write_other _ _ ha]

/-- Settles O28: an append leaves a buffer that is not empty and the result `(NONE, 0)`, a start marker leaves the length alone. -/
theorem onlyTerminatorOrOverflowClears : Obligations.OnlyTerminatorOrOverflowClears := by
  intro i s t hwf h
  refine ⟨fun hne hzero => ?_, fun b hb hresult => ?_⟩
  · obtain ⟨-, -, hlen⟩ | ⟨hend, -, -⟩ | ⟨b, hdata, hbyte, ⟨hcap, -, -⟩ | ⟨-, -, hlen, -⟩⟩ := exec_buffer h
    · exact absurd (hlen.symm.trans hzero) hne
    · exact .inl hend
    · exact .inr ⟨hcap, b, hdata, hbyte hwf⟩
    · exact absurd (hlen.symm.trans hzero) (Nat.succ_ne_zero _)
  · obtain ⟨hnone | ⟨-, hstart⟩, -, -⟩ | ⟨-, -, hlen⟩ | ⟨b, -, -, ⟨-, -, hlen⟩ | ⟨-, -, -, happend⟩⟩ := exec_buffer h
    · cases hb.symm.trans hnone
    · exact absurd hstart hresult
    · exact hlen
    · exact hlen
    · exact absurd happend hresult

/-! ### Sequences -/

/-- A completed sequence ran its first instruction and then the rest. -/
theorem runInstrs_cons_eq_next {i : Instr} {is : List Instr} {s t : State} (h : runInstrs (i :: is) s = .next t) :
    ∃ u, exec i s = .next u ∧ runInstrs is u = .next t := by
  rw [runInstrs] at h
  cases hi : exec i s with
  | next u => exact ⟨u, rfl, by rw [hi] at h; exact h⟩
  | fault f => rw [hi] at h; cases h
  | refused r => rw [hi] at h; cases h

/-- Settles O24: instruction by instruction. -/
theorem crcDependsOnCrcOperationsOnly : Obligations.CrcDependsOnCrcOperationsOnly := by
  intro is
  induction is with
  | nil => exact fun s t h => by rw [← Host.Outcome.next.inj h]; rfl
  | cons i is ih =>
    intro s t h
    obtain ⟨u, hu, ht⟩ := runInstrs_cons_eq_next h
    obtain ⟨hcrc, -⟩ := exec_next hu
    rw [ih u t ht, hcrc, List.foldl_cons]

/-- Settles O25: instruction by instruction. -/
theorem transmitStreamIsFramesInOrder : Obligations.TransmitStreamIsFramesInOrder := by
  intro is
  induction is with
  | nil => exact fun s t h => by rw [← Host.Outcome.next.inj h, List.flatMap_nil, List.append_nil]
  | cons i is ih =>
    intro s t h
    obtain ⟨u, hu, ht⟩ := runInstrs_cons_eq_next h
    obtain ⟨-, htx, -⟩ := exec_next hu
    rw [ih u t ht, htx, List.flatMap_cons, List.append_assoc]

/-! ### Read by -/

/-- Two states alike in all that the receive side reads: the capacity, the latched id, the length and the cells below it. -/
structure SameReceiver (s u : State) : Prop where
  rxCap : u.rxCap = s.rxCap
  reqid : u.reqid = s.reqid
  rxlen : u.rxlen = s.rxlen
  cells : ∀ a < s.rxlen, Memory.read u.rxbuf a = Memory.read s.rxbuf a

/-- A state is like itself. -/
theorem SameReceiver.refl (s : State) : SameReceiver s s :=
  ⟨rfl, rfl, rfl, fun _ _ => rfl⟩

/-- The raw frame is what the receive side reads. -/
theorem rawFrame_congr {s u : State} (h : SameReceiver s u) : rawFrame u = rawFrame s := by
  rw [rawFrame, rawFrame, h.rxlen]
  exact memReads_congr h.rxCap _ _ fun a _ ha => h.cells a (by omega)

/-- What an instruction of the receive side does is settled by what it reads: it stops alike in all such states, or it leaves the
same length and record and the same change of the cells. -/
theorem exec_received_congr {i : Instr} {b : Byte} (hb : receivedByte i = some b) (s : State) :
    (∃ f, ∀ u, SameReceiver s u → exec i u = .fault f) ∨
    ∃ (n : Nat) (r : Record) (g : List Host.Cell → List Host.Cell), ∀ u, SameReceiver s u →
      exec i u = .next { u with rxbuf := g u.rxbuf, rxlen := n, results := u.results ++ [.record r] } ∧
      ∀ a < n, Memory.read (g u.rxbuf) a = Memory.read (g s.rxbuf) a := by
  obtain hi | ⟨-, hi⟩ | ⟨-, hi⟩ | ⟨b, -, -, hi⟩ := Effects.exec_cases i
  · cases hb.symm.trans hi
  · refine .inr ⟨s.rxlen, Record.noEvent, id, fun u hu => ⟨?_, hu.cells⟩⟩
    rw [hi, ← hu.rxlen]
    rfl
  · cases hf : rawFrame s with
    | error f => exact .inl ⟨f, fun u hu => by rw [hi, acceptEnd, rawFrame_congr hu, hf]⟩
    | ok f =>
      refine .inr ⟨0, decodeFrame f s.reqid, id, fun u hu => ⟨?_, fun _ ha => absurd ha (Nat.not_lt_zero _)⟩⟩
      rw [hi, acceptEnd_of_rawFrame ((rawFrame_congr hu).trans hf), ← hu.reqid]
      rfl
  · obtain hlt | heq | hgt := lt_trichotomy s.rxlen s.rxCap
    · refine .inr ⟨s.rxlen + 1, Record.noEvent, fun m => Memory.write m s.rxlen b, fun u hu => ⟨?_, fun a ha => ?_⟩⟩
      · rw [hi, acceptData_of_lt (by rw [hu.rxlen, hu.rxCap]; exact hlt), hu.rxlen]
      · obtain hold | rfl := Nat.lt_succ_iff_lt_or_eq.mp ha
        · rw [Memory.read_write_other _ _ hold.ne, Memory.read_write_other _ _ hold.ne, hu.cells a hold]
        · rw [Memory.read_write_same, Memory.read_write_same]
    · refine .inr ⟨0, Record.overflow, id, fun u hu => ⟨?_, fun _ ha => absurd ha (Nat.not_lt_zero _)⟩⟩
      rw [hi, acceptData_of_eq (by rw [hu.rxlen, hu.rxCap]; exact heq)]
      rfl
    · refine .inl ⟨.noSuchCell s.rxlen, fun u hu => ?_⟩
      rw [hi, Effects.acceptData_of_gt (by rw [hu.rxlen, hu.rxCap]; exact hgt), hu.rxlen]

/-- Settles O26: the states differ in nothing the receive side reads, and it adds one result. -/
theorem receiveSideDoesNotReadCrcOrStreams : Obligations.ReceiveSideDoesNotReadCrcOrStreams := by
  intro b s c bs rs
  have hself := SameReceiver.refl s
  have hother : SameReceiver s { s with crc := c, tx := bs, results := rs } := ⟨rfl, rfl, rfl, fun _ _ => rfl⟩
  obtain ⟨f, hf⟩ | ⟨n, r, g, hg⟩ := exec_received_congr (i := .rxByte b) rfl s
  · rw [hf _ hself, hf _ hother]
  · rw [(hg _ hself).1, (hg _ hother).1]
    simp

/-- Settles O27: below `rxlen` the two states agree, and that is all the receive side reads; the others read no cell. -/
theorem cellsAboveRxlenAreNeverRead : Obligations.CellsAboveRxlenAreNeverRead := by
  intro i s cells hcells
  have hself := SameReceiver.refl s
  have hother : SameReceiver s { s with rxbuf := cells } := ⟨rfl, rfl, rfl, hcells⟩
  cases hb : receivedByte i with
  | none =>
    rw [Effects.exec_of_not_received hb, Effects.exec_of_not_received hb]
    exact ⟨cells, rfl, hcells⟩
  | some b =>
    obtain ⟨f, hf⟩ | ⟨n, r, g, hg⟩ := exec_received_congr hb s
    · rw [hf _ hself]
      exact hf _ hother
    · rw [(hg _ hself).1]
      exact ⟨g cells, hg _ hother⟩

/-! ### The host's queue -/

/-- No instruction reads the host's queue. -/
theorem exec_with_pending {i : Instr} (s : State) (p : List Input) :
    exec i { s with pending := p } =
      match exec i s with
      | .next t => .next { t with pending := p }
      | .fault f => .fault f
      | .refused r => .refused r := by
  cases hb : receivedByte i with
  | none => rw [Effects.exec_of_not_received hb, Effects.exec_of_not_received hb]
  | some b =>
    have hself := SameReceiver.refl s
    have hother : SameReceiver s { s with pending := p } := ⟨rfl, rfl, rfl, fun _ _ => rfl⟩
    obtain ⟨f, hf⟩ | ⟨n, r, g, hg⟩ := exec_received_congr hb s
    · rw [hf _ hself, hf _ hother]
    · rw [(hg _ hself).1, (hg _ hother).1]

/-- Stepping through presented words, with no other input waiting, is running their instructions. -/
theorem run_presented (ws : List CmdWord) : ∀ (is : List Instr) (s : State),
    ws.map (fun w => decode (.cmd w)) = is.map .instr → s.pending = [] →
    Host.Core.run Sys2Proof.core ws.length { s with pending := ws.map .cmd } = runInstrs is s := by
  induction ws with
  | nil =>
    intro is s his hp
    obtain rfl := List.map_eq_nil_iff.mp his.symm
    rw [List.map_nil, ← hp]
    rfl
  | cons w ws ih =>
    intro is s his hp
    obtain ⟨i, is, rfl, hi, his⟩ := List.map_eq_cons_iff.mp his.symm
    have hstep : step { s with pending := (w :: ws).map .cmd } = exec i { s with pending := ws.map .cmd } :=
      CommandWord.step_of_decode_instr rfl hi.symm
    rw [exec_with_pending] at hstep
    cases he : exec i s with
    | next t =>
      rw [he] at hstep
      obtain ⟨-, -, -, -, hpending, -⟩ := exec_next he
      rw [List.length_cons, Invariant.run_succ_of_step hstep, runInstrs_cons_next he]
      exact ih is t his.symm (hpending.trans hp)
    | fault f =>
      rw [he] at hstep
      simp only [List.length_cons, Host.Core.run, Sys2Proof.core, hstep, runInstrs, he]
    | refused r =>
      rw [he] at hstep
      simp only [List.length_cons, Host.Core.run, Sys2Proof.core, hstep, runInstrs, he]

/-- Settles O8: with nothing else waiting, the presented words are the whole queue. -/
theorem presentedSequenceRunsInOrder : Obligations.PresentedSequenceRunsInOrder := by
  intro ws is s his hp
  rw [State.present, hp, List.nil_append]
  exact run_presented ws is s his hp

end Sys2Proof.Proofs.Frame
end

section
/-! The CRC-16 engine (40_crc.md R101 to R104, R108): the bit step on numbers, linearity, injectivity of the byte step and with it
error detection, and CRC.RUN. -/

namespace Sys2Proof.Proofs.CrcEngine

open Sys2Proof Sys2Proof.Machine

/-! ### The bit step on numbers -/

/-- The shifted register as a number. -/
theorem crcShift_toNat (c : Word16) (b : Bool) : (crcShift c b).toNat = 2 * c.toNat + b.toNat := by
  rw [crcShift, BitVec.toNat_append, BitVec.toNat_ofBool, Nat.shiftLeft_eq, Nat.mul_comm c.toNat,
    ← Nat.two_pow_add_eq_or_of_lt (by cases b <;> decide)]

/-- Settles O29: the bit that leaves is the bit of weight `2^16`. -/
theorem bitStepShiftsInAtTheLowEnd : Obligations.BitStepShiftsInAtTheLowEnd := by
  intro c b
  have htop : (crcShift c b).getLsbD 16 = decide (2 ^ 16 ≤ 2 * c.toNat + b.toNat) := by
    rw [← crcShift_toNat]
    exact BitVec.msb_eq_decide (crcShift c b)
  have hlow : ((crcShift c b).extractLsb' 0 16).toNat = (2 * c.toNat + b.toNat) % 2 ^ 16 := by
    rw [BitVec.extractLsb'_toNat, Nat.shiftRight_zero, crcShift_toNat]
  have hlt : 2 * c.toNat + b.toNat < 2 ^ 17 := by
    rw [← crcShift_toNat]
    exact (crcShift c b).isLt
  rw [crcBit, htop]
  by_cases h : 2 * c.toNat + b.toNat < 2 ^ 16
  · rw [if_pos h, if_neg (by simpa using h), hlow, Nat.mod_eq_of_lt h]
  · rw [if_neg h, if_pos (by simpa using h), BitVec.toNat_xor, hlow,
      show (2 * c.toNat + b.toNat) % 2 ^ 16 = 2 * c.toNat + b.toNat - 2 ^ 16 by omega]
    rfl

/-! ### Linearity -/

/-- The byte steps over two sequences of equal length add up (R104 (b)). -/
theorem foldl_crcByte_xor (s : List Byte) : ∀ (t : List Byte) (c d : Word16), s.length = t.length →
    (s.zipWith (· ^^^ ·) t).foldl crcByte (c ^^^ d) = s.foldl crcByte c ^^^ t.foldl crcByte d := by
  induction s with
  | nil =>
    intro t c d h
    obtain rfl := List.length_eq_zero_iff.mp h.symm
    rfl
  | cons a s ih =>
    intro t c d h
    cases t with
    | nil => cases h
    | cons b t =>
      simp only [List.zipWith_cons_cons, List.foldl_cons, crcByte_xor]
      exact ih t _ _ (Nat.succ.inj h)

/-- Settles O31: from the initial register, which is zero. -/
theorem crcIsLinear : Obligations.CrcIsLinear := by
  intro s t h
  have hinit : crcInit = crcInit ^^^ crcInit := by decide
  rw [crc16, hinit]
  exact foldl_crcByte_xor s t crcInit crcInit h

/-! ### Short and zero-led inputs -/

/-- From the register zero, the byte step puts the byte in the low half. -/
theorem crcByte_zero (b : Byte) : crcByte 0x0000 b = be16 0x00 b :=
  CrcResidue.crcByte_be16_zero 0x00 b

/-- Leading zero bytes leave the register zero. -/
theorem foldl_crcByte_replicate_zero (n : Nat) : (List.replicate n 0x00).foldl crcByte 0x0000 = 0x0000 := by
  induction n with
  | zero => rfl
  | succ n ih =>
    rw [List.replicate_succ, List.foldl_cons, crcByte_zero]
    exact ih

/-- Settles O32: one byte and two bytes are shifted in without a carry out. -/
theorem crcOfShortAndZeroLedInputs : Obligations.CrcOfShortAndZeroLedInputs := by
  refine ⟨rfl, fun a => ?_, fun a b => ?_, fun n s => ?_⟩
  · calc crc16 [a] = be16 0x00 a := crcByte_zero a
      _ = a.setWidth 16 := by
        apply BitVec.eq_of_toNat_eq
        rw [CommandWord.be16_toNat, BitVec.toNat_setWidth_of_le (by decide)]
        exact Nat.zero_add _
  · calc crc16 [a, b] = crcByte (crcByte 0x0000 a) b := rfl
      _ = be16 a b := by rw [crcByte_zero, CrcResidue.crcByte_be16_zero]
  · rw [crc16_append]
    exact congrArg (s.foldl crcByte) (foldl_crcByte_replicate_zero n)

/-! ### Injectivity and error detection -/

/-- The bit step sends only the register zero to zero: the polynomial is odd, and what the shift loses is the carry. -/
theorem eq_zero_of_crcBit_false {c : Word16} (h : crcBit c false = 0x0000) : c = 0x0000 := by
  cases htop : c.getLsbD 15 with
  | true =>
    have hodd : (crcBit c false).getLsbD 0 = true := by
      rw [crcBit_eq, htop]
      simp [crcPoly]
    rw [h] at hodd
    cases hodd
  | false =>
    rw [CrcResidue.crcBit_of_top_clear false htop] at h
    apply BitVec.eq_of_getLsbD_eq
    intro i hlt
    obtain hlow | rfl := Nat.lt_succ_iff_lt_or_eq.mp hlt
    · have hnext := congrArg (BitVec.getLsbD · (i + 1)) h
      simpa [BitVec.getLsbD_shiftConcat, Nat.succ_lt_succ hlow, BitVec.getLsbD_eq_getElem hlt] using hnext
    · rw [htop]
      rfl

/-- The bit step is injective in the register. -/
theorem crcBit_injective {c d : Word16} {b : Bool} (h : crcBit c b = crcBit d b) : c = d := by
  have hsum : crcBit (c ^^^ d) false = 0x0000 := by
    rw [← Bool.xor_self b, crcBit_xor, h, BitVec.xor_self]
    rfl
  exact BitVec.xor_eq_zero_iff.mp (eq_zero_of_crcBit_false hsum)

/-- Equal registers after the same bits were equal before them. -/
theorem foldl_crcBit_injective (bits : List Bool) : ∀ {c d : Word16}, bits.foldl crcBit c = bits.foldl crcBit d → c = d := by
  induction bits with
  | nil => exact fun h => h
  | cons b bits ih => exact fun h => crcBit_injective (ih h)

/-- Equal registers after the same bytes were equal before them. -/
theorem foldl_crcByte_injective (s : List Byte) : ∀ {c d : Word16}, s.foldl crcByte c = s.foldl crcByte d → c = d := by
  induction s with
  | nil => exact fun h => h
  | cons a s ih => exact fun h => foldl_crcBit_injective (bitsOf a) (ih h)

/-- From the same register, different bytes lead to different registers. -/
theorem crcByte_injective {c : Word16} {a b : Byte} (h : crcByte c a = crcByte c b) : a = b := by
  have hsum : be16 0x00 (a ^^^ b) = be16 0x00 0x00 := by
    have hlin := crcByte_xor c c a b
    rw [h, BitVec.xor_self, BitVec.xor_self] at hlin
    exact (crcByte_zero (a ^^^ b)).symm.trans hlin
  exact BitVec.xor_eq_zero_iff.mp (CommandWord.be16_inj.mp hsum).2

/-- A sequence with one byte replaced by another has another CRC. -/
theorem crc16_ne_of_byte_ne (u v : List Byte) {a b : Byte} (h : a ≠ b) : crc16 (u ++ a :: v) ≠ crc16 (u ++ b :: v) := by
  simp only [crc16_append, List.foldl_cons]
  exact fun heq => h (crcByte_injective (foldl_crcByte_injective v heq))

/-- An inverted bit replaces one byte by another. -/
theorem exists_flipBit_eq {p : List Byte} {k : Nat} (j : Nat) (hk : k < p.length) (hj : j < 8) :
    ∃ u v a b, a ≠ b ∧ p = u ++ b :: v ∧ flipBit p k j = u ++ a :: v := by
  have hne : p[k] ^^^ (1#8 <<< j) ≠ p[k] := by
    have hmask : 1#8 <<< j ≠ 0#8 := by interval_cases j <;> decide
    exact fun h => hmask ((BitVec.xor_right_inj p[k]).mp (h.trans BitVec.xor_zero.symm))
  refine ⟨p.take k, p.drop (k + 1), _, _, hne, ?_, ?_⟩
  · rw [List.getElem_cons_drop, List.take_append_drop]
  · rw [flipBit, List.modify_eq_take_cons_drop hk]

/-- A single inverted bit leaves no residue zero where there was one (R104 (f)). -/
theorem crc16_flipBit_ne_zero {p : List Byte} {k j : Nat} (hp : crc16 p = 0x0000) (hk : k < p.length) (hj : j < 8) :
    crc16 (flipBit p k j) ≠ 0x0000 := by
  obtain ⟨u, v, a, b, hne, hold, hnew⟩ := exists_flipBit_eq j hk hj
  rw [hnew, ← hp, hold]
  exact crc16_ne_of_byte_ne u v hne

/-- A residue zero pins the last two bytes: they are the CRC of what stands before them. -/
theorem eq_appendCrc_of_crc16_eq_zero {m : List Byte} {a b : Byte} (h : crc16 (m ++ [a, b]) = 0x0000) :
    m ++ [a, b] = appendCrc m := by
  rw [CrcResidue.crc16_append_pair] at h
  rw [appendCrc, BitVec.xor_eq_zero_iff.mp h, CommandWord.hi_be16, CommandWord.lo_be16]

/-- Settles O34: a flipped bit changes the CRC, and a residue zero pins the last two bytes. -/
theorem crcDetectsSingleBitAndTailErrors : Obligations.CrcDetectsSingleBitAndTailErrors :=
  ⟨fun m _ _ hk hj => crc16_flipBit_ne_zero (CrcResidue.crc16_appendCrc m) hk hj,
    fun _ _ _ hne h => hne (eq_appendCrc_of_crc16_eq_zero h)⟩

/-! ### CRC.RUN -/

/-- The CRC.UPD of a sequence, from any state (R106). -/
theorem runInstrs_crcUpd (bs : List Byte) : ∀ (is : List Instr) (s : State), runInstrs (bs.map .crcUpd ++ is) s =
    runInstrs is { s with crc := bs.foldl crcByte s.crc, results := s.results ++ List.replicate bs.length .nothing } := by
  obtain ⟨-, hupd, -⟩ := Effects.crcOperationsCompleteAndChangeOnlyCrc
  induction bs with
  | nil => intro is s; simp
  | cons b bs ih =>
    intro is s
    rw [List.map_cons, List.cons_append, runInstrs_cons_next (hupd b s), ih]
    simp [List.replicate_succ]

/-- Settles O35: CRC.CLR starts from the initial register, CRC.RD reads the last one. -/
theorem crcRunReturnsCrc16 : Obligations.CrcRunReturnsCrc16 := by
  intro bs s
  obtain ⟨hclr, -, hrd⟩ := Effects.crcOperationsCompleteAndChangeOnlyCrc
  rw [crcRun, runInstrs_cons_next (hclr s), runInstrs_crcUpd, runInstrs_cons_next (hrd _), runInstrs]
  simp [crc16, crcInit, List.replicate_succ]

end Sys2Proof.Proofs.CrcEngine
end

section
/-! The CRC as a remainder of polynomials over GF(2) (40_crc.md R104 (a)): a register is the polynomial of its bits, and a bit step
multiplies by `x`, adds the bit and subtracts the generator on a carry. -/

namespace Sys2Proof.Proofs.CrcRemainder

open Sys2Proof Sys2Proof.Machine
open Polynomial

/-- The polynomial of a register: bit `i` is the coefficient of `x^i`. -/
noncomputable def wordPoly (c : Word16) : (ZMod 2)[X] :=
  ∑ i ∈ Finset.range 16, if c.getLsbD i then X ^ i else 0

/-- The generator (the spec's reading G1 of `CRC_POLY`). -/
noncomputable def generator : (ZMod 2)[X] := X ^ 16 + X ^ 12 + X ^ 5 + 1

/-- The polynomial of a message bit. -/
noncomputable def bitPoly (b : Bool) : (ZMod 2)[X] := if b then 1 else 0

/-! ### The polynomial of a register -/

/-- The sum of words is the sum of their polynomials. -/
theorem wordPoly_xor (c d : Word16) : wordPoly (c ^^^ d) = wordPoly c + wordPoly d := by
  rw [wordPoly, wordPoly, wordPoly, ← Finset.sum_add_distrib]
  refine Finset.sum_congr rfl fun i _ => ?_
  rw [BitVec.getLsbD_xor]
  cases c.getLsbD i <;> cases d.getLsbD i <;> simp [CharTwo.add_self_eq_zero]

/-- The polynomial of a register has degree at most 15. -/
theorem degree_wordPoly_lt (c : Word16) : (wordPoly c).degree < 16 := by
  refine (degree_sum_le _ _).trans_lt ((Finset.sup_lt_iff (by decide)).mpr fun i hi => ?_)
  have hlt : i < 16 := Finset.mem_range.mp hi
  split
  · rw [degree_X_pow]
    exact_mod_cast hlt
  · rw [degree_zero]
    exact WithBot.bot_lt_coe 16

/-- A shift multiplies by `x` and loses the bit of weight `2^15`. -/
theorem wordPoly_shiftLeft (c : Word16) : wordPoly (c <<< 1) + (if c.getLsbD 15 then X ^ 16 else 0) = wordPoly c * X := by
  have hlow : wordPoly (c <<< 1) = ∑ i ∈ Finset.range 15, (if c.getLsbD i then X ^ i else 0) * X := by
    have hzero : (c <<< 1).getLsbD 0 = false := by simp
    rw [wordPoly, Finset.sum_range_succ', hzero, if_neg Bool.false_ne_true, add_zero]
    refine Finset.sum_congr rfl fun i hi => ?_
    have hlt : i + 1 < 16 := Nat.succ_lt_succ (Finset.mem_range.mp hi)
    have hshift : (c <<< 1).getLsbD (i + 1) = c.getLsbD i := by
      simp [hlt, BitVec.getLsbD_eq_getElem (Nat.lt_of_succ_lt hlt)]
    rw [hshift, ite_mul, zero_mul, pow_succ]
  rw [hlow, wordPoly, Finset.sum_mul, Finset.sum_range_succ _ 15, ite_mul, zero_mul, ← pow_succ]

/-- A message bit enters as the constant coefficient. -/
theorem wordPoly_ofBool (b : Bool) : wordPoly ((BitVec.ofBool b).setWidth 16) = bitPoly b := by
  cases b <;> simp [wordPoly, bitPoly]

/-- The constant `0x1021` and the carry it cancels are the generator. -/
theorem wordPoly_crcPoly_add : wordPoly crcPoly + X ^ 16 = generator := by
  simp [wordPoly, generator, crcPoly, Finset.sum_range_succ]
  ring

/-! ### The bit step -/

/-- The generator is monic of degree 16. -/
theorem generator_monic : generator.Monic := by
  unfold generator
  monicity!

/-- Its degree as the bound of a remainder. -/
theorem degree_generator : generator.degree = 16 := by
  unfold generator
  compute_degree!

/-- The bit step on polynomials: the carry, if there is one, takes the generator away. -/
theorem wordPoly_crcBit (c : Word16) (b : Bool) :
    wordPoly (crcBit c b) + (if c.getLsbD 15 then generator else 0) = wordPoly c * X + bitPoly b := by
  rw [crcBit_eq, wordPoly_xor, wordPoly_xor, wordPoly_ofBool, ← wordPoly_shiftLeft]
  cases c.getLsbD 15 with
  | false => simp [wordPoly]
  | true =>
    have hcancel : wordPoly crcPoly + wordPoly crcPoly = 0 := CharTwo.add_self_eq_zero _
    simp only [if_true, ← wordPoly_crcPoly_add]
    linear_combination hcancel

/-- A bit step goes from a remainder to the next remainder. -/
theorem wordPoly_crcBit_of_remainder {c : Word16} {p : (ZMod 2)[X]} (b : Bool) (h : wordPoly c = p %ₘ generator) :
    wordPoly (crcBit c b) = (p * X + bitPoly b) %ₘ generator := by
  have hself : wordPoly (crcBit c b) %ₘ generator = wordPoly (crcBit c b) :=
    (modByMonic_eq_self_iff generator_monic).mpr (by rw [degree_generator]; exact degree_wordPoly_lt _)
  have hstep := wordPoly_crcBit c b
  have hdiv := modByMonic_add_div p generator
  have hcarry : (if c.getLsbD 15 then generator else 0) = generator * (if c.getLsbD 15 then 1 else 0) := by
    rw [mul_ite, mul_one, mul_zero]
  rw [h, hcarry] at hstep
  rw [← hself]
  refine modByMonic_eq_of_dvd_sub generator_monic ⟨-(p /ₘ generator) * X - (if c.getLsbD 15 then 1 else 0), ?_⟩
  linear_combination hstep + X * hdiv

/-- Bit after bit, the register is the remainder of the bits so far. -/
theorem wordPoly_foldl_crcBit (bits : List Bool) : ∀ {c : Word16} {p : (ZMod 2)[X]}, wordPoly c = p %ₘ generator →
    wordPoly (bits.foldl crcBit c) = bits.foldl (fun p b => p * X + bitPoly b) p %ₘ generator := by
  induction bits with
  | nil => exact fun h => h
  | cons b bits ih => exact fun h => ih (wordPoly_crcBit_of_remainder b h)

/-- The byte steps are the bit steps over all message bits, bit 7 of each byte first (R102). -/
theorem crc16_eq_foldl_crcBit (s : List Byte) :
    crc16 s = (s.flatMap fun d => (List.range 8).map fun i => d.getLsbD (7 - i)).foldl crcBit crcInit := by
  rw [List.foldl_flatMap]
  rfl

/-- Settles O30: from the register zero, which is the remainder of the empty message. -/
theorem crcIsRemainderOfMessagePolynomial : Obligations.CrcIsRemainderOfMessagePolynomial := by
  intro s
  have hinit : wordPoly crcInit = 0 %ₘ generator := by
    simp [wordPoly, crcInit]
  rw [crc16_eq_foldl_crcBit]
  exact wordPoly_foldl_crcBit _ hinit

end Sys2Proof.Proofs.CrcRemainder
end

section
/-! The escape codec (41_escape.md): the round trip, the shape of an escaped sequence, the one failure of the de-escape, and both
sequences as the outputs of the units' rows (30_encoding.md section 2). -/

namespace Sys2Proof.Proofs.EscapeCodec

open Sys2Proof Sys2Proof.Machine

/-! ### The round trip -/

/-- A pair made from a reserved byte is no anomaly (R126). -/
theorem anomaly_of_reserved {b : Byte} (h : isReserved b = true) : anomaly b = 0 := by
  rw [anomaly, h]
  rfl

/-- The scan takes back the image of one byte. -/
theorem unescapeFrom_escapeByte_append (warn : Nat) (b : Byte) (f : List Byte) :
    unescapeFrom warn (escapeByte b ++ f) = (unescapeFrom warn f).cons b := by
  cases h : isReserved b with
  | true =>
    rw [escapeByte_of_reserved h, List.cons_append, List.singleton_append, unescapeFrom_pair, complement_complement,
      anomaly_of_reserved h, Nat.add_zero]
  | false =>
    rw [escapeByte_of_not_reserved h, List.singleton_append, unescapeFrom_literal _ _ (ne_escPrefix_of_not_reserved h)]

/-- The scan takes back an escaped sequence from any warning count. -/
theorem unescapeFrom_escapeSeq (warn : Nat) (s : List Byte) : unescapeFrom warn (escapeSeq s) = .bytes s warn := by
  induction s with
  | nil => exact unescapeFrom_nil warn
  | cons b s ih =>
    rw [escapeSeq_cons, unescapeFrom_escapeByte_append, ih]
    rfl

/-- Settles O36: from the count zero. -/
theorem unescapeOfEscapeIsTheSequence : Obligations.UnescapeOfEscapeIsTheSequence :=
  unescapeFrom_escapeSeq 0

/-- The escape loses nothing. -/
theorem escapeSeq_injective {s t : List Byte} (h : escapeSeq s = escapeSeq t) : s = t := by
  have hbytes : Unescaped.bytes s 0 = .bytes t 0 := by
    rw [← unescapeOfEscapeIsTheSequence s, ← unescapeOfEscapeIsTheSequence t, h]
  exact (Unescaped.bytes.inj hbytes).1

/-! ### The shape of an escaped sequence -/

/-- No byte of an image is a raw marker: the complement of a reserved byte is not reserved (R122). -/
theorem not_marker_of_mem_escapeByte {b x : Byte} (hx : x ∈ escapeByte b) :
    x ≠ 0x06 ∧ x ≠ 0x0d ∧ x ≠ 0x40 ∧ x ≠ 0x80 := by
  cases h : isReserved b with
  | true =>
    rw [escapeByte_of_reserved h] at hx
    obtain rfl | rfl | rfl | rfl | rfl := (isReserved_iff b).mp h <;>
      obtain rfl | rfl := List.mem_pair.mp hx <;> decide
  | false =>
    rw [escapeByte_of_not_reserved h, List.mem_singleton] at hx
    have hne := (isReserved_iff b).not.mp (by simp [h])
    simp only [not_or] at hne
    obtain ⟨h06, h0d, -, h40, h80⟩ := hne
    exact hx ▸ ⟨h06, h0d, h40, h80⟩

/-- No byte of an escaped sequence is a raw marker. -/
theorem not_marker_of_mem_escapeSeq {s : List Byte} {x : Byte} (hx : x ∈ escapeSeq s) :
    x ≠ 0x06 ∧ x ≠ 0x0d ∧ x ≠ 0x40 ∧ x ≠ 0x80 := by
  obtain ⟨b, -, hb⟩ := List.mem_flatMap.mp hx
  exact not_marker_of_mem_escapeByte hb

/-- An image is one byte, or two for a reserved byte. -/
theorem length_escapeByte (b : Byte) : (escapeByte b).length = 1 + if isReserved b = true then 1 else 0 := by
  cases h : isReserved b with
  | true => rw [escapeByte_of_reserved h]; rfl
  | false => rw [escapeByte_of_not_reserved h]; rfl

/-- Each reserved byte takes one byte more. -/
theorem length_escapeSeq (s : List Byte) : (escapeSeq s).length = s.length + s.countP isReserved := by
  induction s with
  | nil => rfl
  | cons b s ih =>
    rw [escapeSeq_cons, List.length_append, ih, length_escapeByte, List.length_cons, List.countP_cons]
    omega

/-- Settles O37: byte by byte. -/
theorem escapedSequenceHasNoRawMarkers : Obligations.EscapedSequenceHasNoRawMarkers :=
  fun s => ⟨fun _ hx => not_marker_of_mem_escapeSeq hx, length_escapeSeq s⟩

/-! ### The one failure of the de-escape -/

/-- A longer scan fails exactly as the scan of the rest does. -/
theorem cons_eq_formatErr_iff {v : Byte} {u : Unescaped} {w : Nat} : u.cons v = .formatErr w ↔ u = .formatErr w := by
  cases u with
  | bytes d w' => simp [Unescaped.cons]
  | formatErr w' => simp [Unescaped.cons]

/-- An escape byte behind bytes that de-escape is dangling (R127). -/
theorem unescapeFrom_append_dangling (warn : Nat) (f : List Byte) : ∀ {d : List Byte} {w : Nat},
    unescapeFrom warn f = .bytes d w → unescapeFrom warn (f ++ [escPrefix]) = .formatErr w := by
  induction warn, f using unescapeFrom.induct with
  | case1 warn =>
    intro d w h
    obtain ⟨-, rfl⟩ := Unescaped.bytes.inj ((unescapeFrom_nil warn).symm.trans h)
    exact unescapeFrom_dangling warn
  | case2 warn =>
    intro d w h
    cases (unescapeFrom_dangling warn).symm.trans h
  | case3 warn b hb =>
    intro d w h
    rw [unescapeFrom_literal warn [] hb, UnescapeScan.cons_eq_bytes_iff, unescapeFrom_nil] at h
    obtain ⟨d', h', -⟩ := h
    obtain ⟨-, rfl⟩ := Unescaped.bytes.inj h'
    rw [List.singleton_append, unescapeFrom_literal warn _ hb, unescapeFrom_dangling]
    rfl
  | case4 warn n f ih =>
    intro d w h
    rw [unescapeFrom_pair, UnescapeScan.cons_eq_bytes_iff] at h
    obtain ⟨d', h', -⟩ := h
    rw [List.cons_append, List.cons_append, unescapeFrom_pair, ih h']
    rfl
  | case5 warn b n f hb ih =>
    intro d w h
    rw [unescapeFrom_literal warn _ hb, UnescapeScan.cons_eq_bytes_iff] at h
    obtain ⟨d', h', -⟩ := h
    rw [List.cons_append, unescapeFrom_literal warn _ hb, ih h']
    rfl

/-- A scan that fails met an escape byte behind bytes that de-escape. -/
theorem exists_of_unescapeFrom_eq_formatErr (warn : Nat) (f : List Byte) : ∀ {w : Nat}, unescapeFrom warn f = .formatErr w →
    ∃ f' d, f = f' ++ [escPrefix] ∧ unescapeFrom warn f' = .bytes d w := by
  induction warn, f using unescapeFrom.induct with
  | case1 warn =>
    intro w h
    cases (unescapeFrom_nil warn).symm.trans h
  | case2 warn =>
    intro w h
    obtain rfl := Unescaped.formatErr.inj ((unescapeFrom_dangling warn).symm.trans h)
    exact ⟨[], [], rfl, unescapeFrom_nil warn⟩
  | case3 warn b hb =>
    intro w h
    rw [unescapeFrom_literal warn [] hb, cons_eq_formatErr_iff, unescapeFrom_nil] at h
    cases h
  | case4 warn n f ih =>
    intro w h
    rw [unescapeFrom_pair, cons_eq_formatErr_iff] at h
    obtain ⟨f', d, rfl, hf'⟩ := ih h
    exact ⟨escPrefix :: n :: f', complement n :: d, rfl, by rw [unescapeFrom_pair, hf']; rfl⟩
  | case5 warn b n f hb ih =>
    intro w h
    rw [unescapeFrom_literal warn _ hb, cons_eq_formatErr_iff] at h
    obtain ⟨f', d, hf, hf'⟩ := ih h
    exact ⟨b :: f', b :: d, by rw [hf, List.cons_append], by rw [unescapeFrom_literal warn _ hb, hf']; rfl⟩

/-- Settles O39: both directions from the count zero. -/
theorem unescapeFailsOnDanglingPrefixOnly : Obligations.UnescapeFailsOnDanglingPrefixOnly := by
  refine fun f w => ⟨exists_of_unescapeFrom_eq_formatErr 0 f, ?_⟩
  rintro ⟨f', d, rfl, h⟩
  exact unescapeFrom_append_dangling 0 f' h

/-! ### The rows of the stages -/

/-- The row of a payload byte delivers the byte's image. -/
theorem exec_decodeTxb (b : Byte) (s : State) : exec (decodeTxb b) s = .next (s.deliver (.image (escapeByte b))) := by
  cases h : isReserved b with
  | true => obtain rfl | rfl | rfl | rfl | rfl := (isReserved_iff b).mp h <;> rfl
  | false =>
    rw [CommandWord.decodeTxb_of_not_reserved h, escapeByte_of_not_reserved h]
    rfl

/-- The rows of a payload deliver its images in order. -/
theorem runInstrs_decodeTxb (bs : List Byte) : ∀ s : State, runInstrs (bs.map decodeTxb) s =
    .next { s with results := s.results ++ (bs.map escapeByte).map .image } := by
  induction bs with
  | nil => intro s; simp [runInstrs]
  | cons b bs ih =>
    intro s
    rw [List.map_cons, runInstrs_cons_next (exec_decodeTxb b s), ih]
    simp [State.deliver]

/-- Settles O40: the images in order are the escaped sequence by its definition. -/
theorem escapeSeqIsTheUnitsOutputs : Obligations.EscapeSeqIsTheUnitsOutputs := by
  refine fun bs => ⟨bs.map decodeTxb, List.map_map, fun s => ⟨bs.map escapeByte, ?_, runInstrs_decodeTxb bs s⟩⟩
  rw [escapeSeq, List.flatMap_def]

/-- What the rows of the de-escaper's units deliver, against the outcome of the scan from a warning count: one output for each
decoded byte, the anomalies on top of the count, and at a dangling escape byte one more record. -/
def RowsDeliver (warn : Nat) (is : List Instr) (outs : List (Byte × Nat)) : Unescaped → Prop
  | .bytes d w => outs.map Prod.fst = d ∧ warn + (outs.map Prod.snd).sum = w ∧
      ∀ s, runInstrs is s = .next { s with results := s.results ++ outs.map fun o => .unescaped o.1 o.2 }
  | .formatErr w => warn + (outs.map Prod.snd).sum = w ∧
      ∀ s, runInstrs is s = .next
        { s with results := s.results ++ (outs.map fun o => .unescaped o.1 o.2) ++ [.record ⟨.formatErr, 0, none⟩] }

/-- A row in front delivers its byte and its anomaly in front. -/
theorem RowsDeliver.cons {warn n : Nat} {v : Byte} {i : Instr} {is : List Instr} {outs : List (Byte × Nat)} {u : Unescaped}
    (hi : ∀ s, exec i s = .next (s.deliver (.unescaped v n))) (h : RowsDeliver (warn + n) is outs u) :
    RowsDeliver warn (i :: is) ((v, n) :: outs) (u.cons v) := by
  cases u with
  | bytes d w =>
    obtain ⟨hbytes, hwarn, hrun⟩ := h
    refine ⟨by rw [List.map_cons, hbytes], by rw [List.map_cons, List.sum_cons, ← Nat.add_assoc, hwarn], fun s => ?_⟩
    rw [runInstrs_cons_next (hi s), hrun]
    simp [State.deliver]
  | formatErr w =>
    obtain ⟨hwarn, hrun⟩ := h
    refine ⟨by rw [List.map_cons, List.sum_cons, ← Nat.add_assoc, hwarn], fun s => ?_⟩
    rw [runInstrs_cons_next (hi s), hrun]
    simp [State.deliver]

/-- No units deliver nothing. -/
theorem RowsDeliver.nil (warn : Nat) : RowsDeliver warn [] [] (.bytes [] warn) :=
  ⟨rfl, rfl, fun s => by simp [runInstrs]⟩

/-- The units of a scan decode to rows that deliver its outcome, by the branches of the scan. -/
theorem exists_rowsDeliver (warn : Nat) (f : List Byte) : ∃ (is : List Instr) (outs : List (Byte × Nat)),
    is.map Decoded.instr = (debUnits f).map decode ∧ RowsDeliver warn is outs (unescapeFrom warn f) := by
  induction warn, f using unescapeFrom.induct with
  | case1 warn => exact ⟨[], [], rfl, RowsDeliver.nil warn⟩
  | case2 warn =>
    rw [unescapeFrom_dangling]
    exact ⟨[.debEsc none], [], rfl, rfl, fun s => by simp [runInstrs, exec, execDebEsc, State.deliver, Record.failed]⟩
  | case3 warn b hb =>
    rw [unescapeFrom_literal warn [] hb, unescapeFrom_nil]
    refine ⟨[.debLit b], [(b, 0)], ?_, RowsDeliver.cons (fun _ => rfl) (RowsDeliver.nil warn)⟩
    have hne : b ≠ 0x1b := hb
    rw [debUnits, List.map_singleton, List.map_singleton, decode, decodeDeb, if_neg hne]
  | case4 warn n f ih =>
    obtain ⟨is, outs, his, hdeliver⟩ := ih
    rw [unescapeFrom_pair]
    refine ⟨.debEsc (some n) :: is, (complement n, anomaly (complement n)) :: outs, ?_, hdeliver.cons fun _ => rfl⟩
    rw [List.map_cons, his, debUnits]
    rfl
  | case5 warn b n f hb ih =>
    obtain ⟨is, outs, his, hdeliver⟩ := ih
    rw [unescapeFrom_literal warn _ hb]
    refine ⟨.debLit b :: is, (b, 0) :: outs, ?_, hdeliver.cons fun _ => rfl⟩
    have hne : b ≠ 0x1b := hb
    rw [List.map_cons, his, debUnits, if_neg hne, List.map_cons, decode, decodeDeb, if_neg hne]

/-- Settles O60: the scan starts at the count zero. -/
theorem unescapeSeqIsTheUnitsOutputs : Obligations.UnescapeSeqIsTheUnitsOutputs := by
  intro f
  obtain ⟨is, outs, his, hdeliver⟩ := exists_rowsDeliver 0 f
  refine ⟨is, outs, his, ?_⟩
  rw [unescapeSeq]
  cases hscan : unescapeFrom 0 f with
  | bytes d w => simpa only [hscan, RowsDeliver, Nat.zero_add] using hdeliver
  | formatErr w => simpa only [hscan, RowsDeliver, Nat.zero_add] using hdeliver

end Sys2Proof.Proofs.EscapeCodec
end

section
/-! The request frame (30_encoding.md section 1, 42_tx_encode.md R140 to R145): what is inside it, its shape, and that the id can be
read off it. -/

namespace Sys2Proof.Proofs.RequestFrame

open Sys2Proof Sys2Proof.Machine

/-- The payload of a request, spelled out (R61). -/
theorem appendCrc_buildRequest (id : Word16) : appendCrc (buildRequest id) =
    [0x3f, 0x10, 0x01, hi id, lo id, hi (txCrc (buildRequest id)), lo (txCrc (buildRequest id))] := rfl

/-- Settles O42: the definition of the frame, the round trip of the escape, and the residue of a message with its CRC. -/
theorem requestFrameCarriesItsPayload : Obligations.RequestFrameCarriesItsPayload :=
  fun id => ⟨appendCrc (buildRequest id), rfl, rfl, EscapeCodec.unescapeOfEscapeIsTheSequence _, CrcResidue.crc16_appendCrc _⟩

/-- The frame determines its payload. -/
theorem encodeRequest_injective {id id' : Word16} (h : encodeRequest id = encodeRequest id') : id = id' := by
  have hpayload : appendCrc (buildRequest id) = appendCrc (buildRequest id') :=
    EscapeCodec.escapeSeq_injective (by simpa [encodeRequest, frameWrap] using h)
  simp only [appendCrc_buildRequest, List.cons.injEq, true_and] at hpayload
  obtain ⟨hhi, hlo, -⟩ := hpayload
  exact word_ext hhi hlo

/-- Settles O43: the frame determines its id. -/
theorem requestFrameIsInjectiveInTheId : Obligations.RequestFrameIsInjectiveInTheId :=
  fun _ _ => encodeRequest_injective

/-- The four bytes of a request payload that depend on the id. -/
def idAndCrc (id : Word16) : List Byte := [hi id, lo id, hi (txCrc (buildRequest id)), lo (txCrc (buildRequest id))]

/-- The header holds no reserved byte, so the frame is the header and the escape of the id and the CRC. -/
theorem encodeRequest_eq (id : Word16) : encodeRequest id = [0x80, 0x3f, 0x10, 0x01] ++ escapeSeq (idAndCrc id) ++ [0x0d] := by
  rw [encodeRequest, appendCrc_buildRequest, escapeSeq_cons, escapeSeq_cons, escapeSeq_cons, ← idAndCrc,
    escapeByte_of_not_reserved (by decide), escapeByte_of_not_reserved (by decide), escapeByte_of_not_reserved (by decide)]
  rfl

/-- No id of two reserved bytes has a CRC of two reserved bytes: of the 25 such ids, none. -/
theorem crc_of_reserved_id : ∀ a ∈ reserved, ∀ b ∈ reserved,
    ¬(isReserved (hi (txCrc [0x3f, 0x10, 0x01, a, b])) = true ∧ isReserved (lo (txCrc [0x3f, 0x10, 0x01, a, b])) = true) := by
  decide +kernel

/-- At most three of the four bytes are reserved (R145). -/
theorem countP_idAndCrc_le (id : Word16) : (idAndCrc id).countP isReserved ≤ 3 := by
  by_contra hgt
  have hall : (idAndCrc id).countP isReserved = (idAndCrc id).length :=
    le_antisymm List.countP_le_length (Nat.not_le.mp hgt)
  obtain ⟨hhi, hlo, hcrc⟩ : isReserved (hi id) = true ∧ isReserved (lo id) = true ∧
      isReserved (hi (txCrc (buildRequest id))) = true ∧ isReserved (lo (txCrc (buildRequest id))) = true := by
    simpa [idAndCrc] using List.countP_eq_length.mp hall
  exact crc_of_reserved_id _ (List.contains_iff_mem.mp hhi) _ (List.contains_iff_mem.mp hlo) hcrc

/-- Settles O41: the length is 9 bytes and one more for each reserved byte of the id and the CRC. -/
theorem requestFrameShape : Obligations.RequestFrameShape := by
  intro id
  have hlen : (encodeRequest id).length = 9 + (idAndCrc id).countP isReserved := by
    rw [encodeRequest_eq, List.length_append, List.length_append, EscapeCodec.length_escapeSeq]
    simp only [idAndCrc, List.length_cons, List.length_nil]
    omega
  have hle := countP_idAndCrc_le id
  exact ⟨escapeSeq (idAndCrc id), encodeRequest_eq id, fun _ hx => EscapeCodec.not_marker_of_mem_escapeSeq hx,
    by omega, by omega⟩

end Sys2Proof.Proofs.RequestFrame
end

section
/-! The decoder and verifier (43_decode_verify.md): what acceptance means, and what becomes of a good response, of a corrupted one,
of a foreign one, of one behind a stray byte, and of a request. -/

namespace Sys2Proof.Proofs.Response

open Sys2Proof Sys2Proof.Machine

/-! ### The steps of the decoder, each on what the one before it leaves -/

/-- Step 2 on a frame that de-escapes (R162). -/
theorem decodeFrame_of_bytes {f d : List Byte} {w : Nat} (h : unescapeSeq f = .bytes d w) (q : Option Word16) :
    decodeFrame f q = if crc16 d ≠ 0x0000 then Record.failed .crcErr w else decodeHeader q w d := by
  rw [decodeFrame, h]

/-- A frame with zero residue goes to step 3. -/
theorem decodeFrame_of_residue_zero {f d : List Byte} {w : Nat} (h : unescapeSeq f = .bytes d w) (hcrc : crc16 d = 0x0000)
    (q : Option Word16) : decodeFrame f q = decodeHeader q w d := by
  rw [decodeFrame_of_bytes h, if_neg (not_not_intro hcrc)]

/-- A frame with another residue ends at step 2. -/
theorem decodeFrame_of_residue_ne_zero {f d : List Byte} {w : Nat} (h : unescapeSeq f = .bytes d w) (hcrc : crc16 d ≠ 0x0000)
    (q : Option Word16) : decodeFrame f q = Record.failed .crcErr w := by
  rw [decodeFrame_of_bytes h, if_pos hcrc]

/-- Step 4 fails, or the decoded bytes from index 4 on spell the fields with a whole mantissa (R164, R167). -/
theorem decodeFields_cases (w : Nat) (t : List Byte) :
    decodeFields w t = Record.failed .formatErr w ∨
    ∃ unit e mant rest, t = unit :: BitVec.ofNat 8 mant.length :: e :: (mant ++ rest) ∧ 2 ≤ rest.length ∧
      mant.length < 256 ∧
      decodeFields w t = Record.accepted w ⟨unit, mant.length, e.toNat % 64, e.getLsbD 6, e.getLsbD 7, be mant⟩ := by
  match t with
  | [] | [_] | [_, _] => exact .inl rfl
  | unit :: len :: e :: rest =>
    rw [decodeFields]
    split
    · exact .inl rfl
    next hroom =>
      have hlen : (rest.take len.toNat).length = len.toNat := by
        rw [List.length_take]
        omega
      refine .inr ⟨unit, e, rest.take len.toNat, rest.drop len.toNat, ?_, ?_, hlen.trans_lt len.isLt, ?_⟩
      · rw [hlen, BitVec.ofNat_toNat, BitVec.setWidth_eq, List.take_append_drop]
      · rw [List.length_drop]
        omega
      · rw [hlen, ← ExponentByte.expMag_eq_toNat_mod]
        rfl

/-- Step 3 fails, or the header is that of a response to the requested id and step 4 follows (R163). -/
theorem decodeHeader_cases (q : Option Word16) (w : Nat) (d : List Byte) :
    (∃ st, st ≠ .frameOk ∧ decodeHeader q w d = Record.failed st w) ∨
    ∃ id rest, q = some id ∧ d = 0x3f :: 0x10 :: hi id :: lo id :: rest ∧ decodeHeader q w d = decodeFields w rest := by
  match d, q with
  | [], _ | [_], _ | [_, _], _ | [_, _, _], _ => exact .inl ⟨.formatErr, nofun, rfl⟩
  | _ :: _ :: _ :: _ :: _, none => exact .inl ⟨.hdrErr, nofun, rfl⟩
  | d0 :: d1 :: d2 :: d3 :: rest, some id =>
    simp only [decodeHeader]
    split
    next hheader =>
      obtain ⟨rfl, rfl, rfl, rfl⟩ := hheader
      exact .inr ⟨id, rest, rfl, rfl, rfl⟩
    · exact .inl ⟨.hdrErr, nofun, rfl⟩

/-- The decoder fails with no fields, or all four steps pass. -/
theorem decodeFrame_cases (f : List Byte) (q : Option Word16) :
    (∃ st w, st ≠ .frameOk ∧ decodeFrame f q = Record.failed st w) ∨
    ∃ d w id unit e mant rest, unescapeSeq f = .bytes d w ∧ crc16 d = 0x0000 ∧ q = some id ∧
      d = 0x3f :: 0x10 :: hi id :: lo id :: unit :: BitVec.ofNat 8 mant.length :: e :: (mant ++ rest) ∧ 2 ≤ rest.length ∧
      mant.length < 256 ∧
      decodeFrame f q = Record.accepted w ⟨unit, mant.length, e.toNat % 64, e.getLsbD 6, e.getLsbD 7, be mant⟩ := by
  cases hf : unescapeSeq f with
  | formatErr w => exact .inl ⟨.formatErr, w, nofun, by rw [decodeFrame, hf]⟩
  | bytes d w =>
    by_cases hcrc : crc16 d = 0x0000
    · rw [decodeFrame_of_residue_zero hf hcrc]
      obtain ⟨st, hst, hd⟩ | ⟨id, t, hq, rfl, hd⟩ := decodeHeader_cases q w d
      · exact .inl ⟨st, w, hst, hd⟩
      · obtain ht | ⟨unit, e, mant, rest, rfl, hrest, hmant, ht⟩ := decodeFields_cases w t
        · exact .inl ⟨.formatErr, w, nofun, hd.trans ht⟩
        · exact .inr ⟨_, w, id, unit, e, mant, rest, rfl, hcrc, hq, rfl, hrest, hmant, hd.trans ht⟩
    · exact .inl ⟨.crcErr, w, nofun, decodeFrame_of_residue_ne_zero hf hcrc q⟩

/-! ### What acceptance means -/

/-- Settles O45: a failure has no fields and another status; acceptance comes with all that the four steps checked. -/
theorem onlyVerifiedFramesAreAccepted : Obligations.OnlyVerifiedFramesAreAccepted := by
  intro f q
  obtain ⟨st, w, hst, h⟩ | ⟨d, w, id, unit, e, mant, rest, hf, hcrc, hq, rfl, hrest, hmant, h⟩ := decodeFrame_cases f q
  · rw [h]
    exact ⟨iff_of_false Bool.false_ne_true hst, fun hok => absurd hok hst⟩
  · rw [h]
    exact ⟨iff_of_true rfl rfl, fun _ => ⟨id, _, hq, hf, hcrc, List.prefix_append [0x3f, 0x10, hi id, lo id] _,
      unit, e, mant, rest, rfl, hrest, hmant, rfl⟩⟩

/-- Settles O49: the zero byte keeps the residue and takes the place of the header's first byte. -/
theorem leadingZeroByteIsHdrErr : Obligations.LeadingZeroByteIsHdrErr := by
  intro f q hok
  obtain ⟨st, w, hst, h⟩ | ⟨d, w, id, unit, e, mant, rest, hf, hcrc, -, rfl, -, -, h⟩ := decodeFrame_cases f q
  · rw [h] at hok
    exact absurd hok hst
  · obtain ⟨-, -, -, hzero⟩ := CrcEngine.crcOfShortAndZeroLedInputs
    have hf0 : unescapeSeq (0x00 :: f) = (unescapeSeq f).cons 0x00 := unescapeFrom_literal 0 f (by decide)
    rw [hf, Unescaped.cons] at hf0
    rw [h, decodeFrame_of_residue_zero hf0 ((hzero 1 _).trans hcrc)]
    exact DecodeChecks.decodeHeader_of_mismatch (by simp) (.inr (.inl (by simp)))

/-! ### Responses -/

/-- The payload of a response, spelled out: two bytes stand behind the mantissa (R62). -/
theorem exists_responsePayload_eq (id : Word16) (unit e : Byte) (mant : List Byte) : ∃ a b : Byte,
    responsePayload id unit e mant =
      0x3f :: 0x10 :: hi id :: lo id :: unit :: BitVec.ofNat 8 mant.length :: e :: (mant ++ [a, b]) :=
  ⟨_, _, rfl⟩

/-- Whatever the id requested, a response in its escaped form passes the residue check and goes to the header check. -/
theorem decodeFrame_response (id : Word16) (q : Option Word16) (unit e : Byte) (mant : List Byte) :
    decodeFrame (escapeSeq (responsePayload id unit e mant)) q = decodeHeader q 0 (responsePayload id unit e mant) :=
  decodeFrame_of_residue_zero (EscapeCodec.unescapeOfEscapeIsTheSequence _) (CrcResidue.crc16_appendCrc _) q

/-- Step 4 on the fields of a response (R164). -/
theorem decodeFields_of_response (unit e a b : Byte) {mant : List Byte} (h : mant.length < 256) :
    decodeFields 0 (unit :: BitVec.ofNat 8 mant.length :: e :: (mant ++ [a, b])) = goodRecord unit e mant := by
  have hlen : (BitVec.ofNat 8 mant.length).toNat = mant.length := (BitVec.toNat_ofNat ..).trans (Nat.mod_eq_of_lt h)
  have hroom : ¬mant.length + 2 > (mant ++ [a, b]).length := by simp
  rw [decodeFields, hlen, if_neg hroom, extractFields, hlen, List.take_left, ExponentByte.expMag_eq_toNat_mod]
  rfl

/-- Settles O46: residue zero, the echoed id, and the fields as they were put in. -/
theorem goodResponseIsAccepted : Obligations.GoodResponseIsAccepted := by
  intro id unit e mant h
  obtain ⟨a, b, hpayload⟩ := exists_responsePayload_eq id unit e mant
  rw [decodeFrame_response, hpayload, decodeHeader, if_pos ⟨rfl, rfl, rfl, rfl⟩]
  exact decodeFields_of_response unit e a b h

/-- Settles O47: the flipped bit leaves a residue. -/
theorem corruptedResponseIsCrcErr : Obligations.CorruptedResponseIsCrcErr :=
  fun _ q _ _ _ _ _ _ hk hj => decodeFrame_of_residue_ne_zero (EscapeCodec.unescapeOfEscapeIsTheSequence _)
    (CrcEngine.crc16_flipBit_ne_zero (CrcResidue.crc16_appendCrc _) hk hj) q

/-- Settles O48: the echoed id is not the one requested. -/
theorem foreignResponseIsHdrErr : Obligations.ForeignResponseIsHdrErr := by
  intro id q unit e mant _ hq
  obtain ⟨a, b, hpayload⟩ := exists_responsePayload_eq id unit e mant
  rw [decodeFrame_response, hpayload]
  cases q with
  | none => rfl
  | some id' =>
    refine if_neg ?_
    rintro ⟨-, -, hhi, hlo⟩
    exact hq (congrArg some (word_ext hhi hlo).symm)

/-! ### Requests -/

/-- The payload of a request fails the header check, or has the header of a response to itself and no fields. -/
theorem decodeHeader_request (id : Word16) : decodeHeader (some id) 0 (appendCrc (buildRequest id)) =
    if id = 0x0101 then Record.failed .formatErr 0 else Record.failed .hdrErr 0 := by
  rw [RequestFrame.appendCrc_buildRequest]
  by_cases hid : id = 0x0101
  · subst hid
    rfl
  · rw [if_neg hid]
    refine if_neg ?_
    rintro ⟨-, -, hhi, hlo⟩
    exact hid (word_ext (hhi ▸ rfl) (hlo ▸ hhi ▸ rfl))

/-- A start marker in front of a message with its CRC leaves a residue: without it, or as a zero byte, there would be none. -/
theorem crc16_txStart_cons_appendCrc (m : List Byte) : crc16 (0x80 :: appendCrc m) ≠ 0x0000 := by
  obtain ⟨-, -, -, hzero⟩ := CrcEngine.crcOfShortAndZeroLedInputs
  rw [← CrcResidue.crc16_appendCrc m, ← hzero 1 (appendCrc m)]
  exact CrcEngine.crc16_ne_of_byte_ne [] (appendCrc m) (by decide)

/-- Settles O50: the payload by its header, and behind its start marker by the residue. -/
theorem requestIsNeverAResponse : Obligations.RequestIsNeverAResponse := by
  refine fun id => ⟨?_, fun q => ?_⟩
  · rw [decodeFrame_of_residue_zero (EscapeCodec.unescapeOfEscapeIsTheSequence _) (CrcResidue.crc16_appendCrc _)]
    exact decodeHeader_request id
  · have hf : unescapeSeq (0x80 :: escapeSeq (appendCrc (buildRequest id))) = .bytes (0x80 :: appendCrc (buildRequest id)) 0 := by
      rw [unescapeSeq, unescapeFrom_literal 0 _ (by decide), EscapeCodec.unescapeFrom_escapeSeq]
      rfl
    exact decodeFrame_of_residue_ne_zero hf (crc16_txStart_cons_appendCrc _) q

end Sys2Proof.Proofs.Response
end

section
/-! Numbers: the byte order of words and of the mantissa (00_scope.md R9, 43_decode_verify.md R166), the reading of an accepted
response (R170), and the codes of the statuses (60_exceptions.md R200). -/

namespace Sys2Proof.Proofs.Numbers

open Sys2Proof Sys2Proof.Machine

/-! ### Words -/

/-- The high byte is the quotient by 256. -/
theorem hi_toNat (w : Word16) : (hi w).toNat = w.toNat / 256 := by
  rw [hi, BitVec.extractLsb'_toNat, Nat.shiftRight_eq_div_pow]
  have hlt := w.isLt
  omega

/-- The low byte is the remainder by 256. -/
theorem lo_toNat (w : Word16) : (lo w).toNat = w.toNat % 256 := by
  rw [lo, BitVec.extractLsb'_toNat, Nat.shiftRight_zero]

/-- Settles O53: quotient, remainder, and the word they spell. -/
theorem wordsSplitAndJoinBigEndian : Obligations.WordsSplitAndJoinBigEndian :=
  ⟨fun w => ⟨hi_toNat w, lo_toNat w⟩,
    fun a b => ⟨CommandWord.be16_toNat a b, CommandWord.hi_be16 a b, CommandWord.lo_be16 a b⟩⟩

/-! ### The mantissa -/

/-- The last byte is the least significant one. -/
theorem be_append_singleton (s : List Byte) (b : Byte) : be (s ++ [b]) = be s * 256 + b.toNat := by
  rw [be, List.foldl_append]
  rfl

/-- A mantissa of `L` bytes lies below `256^L`. -/
theorem be_lt (s : List Byte) : be s < 256 ^ s.length := by
  induction s using List.reverseRecOn with
  | nil => decide
  | append_singleton s b ih =>
    have hb : b.toNat < 256 := b.isLt
    rw [be_append_singleton, List.length_append, List.length_singleton, pow_succ]
    omega

/-- Leading zero bytes change nothing. -/
theorem be_replicate_zero_append (n : Nat) (s : List Byte) : be (List.replicate n 0x00 ++ s) = be s := by
  induction n with
  | zero => rfl
  | succ n ih => exact ih

/-- Settles O52: the recursion from the last byte, the bound and the leading zeros. -/
theorem mantissaIsBigEndian : Obligations.MantissaIsBigEndian :=
  ⟨rfl, be_append_singleton, be_lt, be_replicate_zero_append⟩

/-! ### The reading -/

/-- The signed mantissa as a power of `-1`. -/
theorem signedMant_eq (f : Fields) : (f.signedMant : ℚ) = (-1) ^ f.valneg.toNat * f.mant := by
  rw [Fields.signedMant]
  cases f.valneg <;> simp

/-- Settles O54: a negative exponent divides, any other multiplies. -/
theorem readingIsTheExactRational : Obligations.ReadingIsTheExactRational := by
  intro f
  rw [← signedMant_eq, Fields.value]
  cases f.expneg with
  | false => simp [Rat.mkRat_eq_div]
  | true => simp [Rat.mkRat_eq_div, div_eq_mul_inv]

/-! ### The codes -/

/-- The status of a code; code 6 and the codes from 8 on are unused. -/
def statusOfCode : Nat → Option Status
  | 0 => some .noEvent
  | 1 => some .frameOk
  | 2 => some .crcErr
  | 3 => some .hdrErr
  | 4 => some .formatErr
  | 5 => some .overflow
  | 7 => some .illegalOp
  | _ => none

/-- The code of a status names it. -/
theorem statusOfCode_code (a : Status) : statusOfCode a.code = some a := by
  cases a <;> rfl

/-- Settles O59: the table, and a code names its status. -/
theorem statusCodes : Obligations.StatusCodes := by
  refine ⟨rfl, rfl, rfl, rfl, rfl, rfl, rfl, fun a b h => Option.some.inj ?_⟩
  rw [← statusOfCode_code a, h, statusOfCode_code]

end Sys2Proof.Proofs.Numbers
end

section
/-! The receive accumulator as a bounded sequence (44_rx_accumulator.md R181 to R188): the simulation, and what follows from it for
whole wire streams. -/

namespace Sys2Proof.Proofs.Accumulator

open Sys2Proof Sys2Proof.Machine

/-! ### One byte -/

/-- Two states alike in all that RX.BYTE leaves alone. -/
structure SameOutside (s t : State) : Prop where
  crc : t.crc = s.crc
  reqid : t.reqid = s.reqid
  tx : t.tx = s.tx
  rxCap : t.rxCap = s.rxCap
  pending : t.pending = s.pending

/-- Leaving alone twice is leaving alone. -/
theorem SameOutside.trans {s t u : State} (h : SameOutside s t) (h' : SameOutside t u) : SameOutside s u :=
  ⟨h'.crc.trans h.crc, h'.reqid.trans h.reqid, h'.tx.trans h.tx, h'.rxCap.trans h.rxCap, h'.pending.trans h.pending⟩

/-- RX.BYTE leaves alone all but the buffer and its result. -/
theorem sameOutside_of_exec_rxByte {s t : State} {b : Byte} (h : exec (.rxByte b) s = .next t) : SameOutside s t := by
  obtain ⟨m, n, r, rfl⟩ := Frame.exec_received_next rfl h
  exact ⟨rfl, rfl, rfl, rfl, rfl⟩

/-- Under the invariant, holding a sequence is handing it over as the raw frame. -/
theorem rawFrame_iff_of_inv {s : State} (h : s.Inv) {acc : List Byte} :
    rawFrame s = .ok acc ↔ acc.length = s.rxlen ∧ ∀ i < s.rxlen, acc[i]? = Memory.read s.rxbuf i := by
  rw [rawFrame_ok]
  refine and_congr_right fun _ => forall₂_congr fun i hi => ?_
  rw [and_iff_right (hi.trans_le h.len_le), eq_comm]

/-- An empty buffer hands over the empty frame. -/
theorem rawFrame_of_rxlen_zero {s : State} (h : s.rxlen = 0) : rawFrame s = .ok [] := by
  rw [rawFrame, h]
  rfl

/-- An append adds its byte at the end of the frame. -/
theorem rawFrame_append {s t : State} {acc : List Byte} {b : Byte} (hlt : s.rxlen < s.rxCap) (hacc : rawFrame s = .ok acc)
    (hcap : t.rxCap = s.rxCap) (hlen : t.rxlen = s.rxlen + 1) (hbuf : t.rxbuf = Memory.write s.rxbuf s.rxlen b) :
    rawFrame t = .ok (acc ++ [b]) := by
  obtain ⟨hacclen, hcells⟩ := rawFrame_ok.mp hacc
  refine rawFrame_ok.mpr ⟨by rw [List.length_append, List.length_singleton, hacclen, hlen], fun i hi => ?_⟩
  rw [hlen] at hi
  rw [hcap, hbuf]
  obtain hold | rfl := Nat.lt_succ_iff_lt_or_eq.mp hi
  · obtain ⟨hi', hread⟩ := hcells i hold
    exact ⟨hi', by rw [Memory.read_write_other _ _ hold.ne, hread, List.getElem?_append_left (hacclen ▸ hold)]⟩
  · exact ⟨hlt, by rw [Memory.read_write_same, ← hacclen, List.getElem?_concat_length]⟩

/-- The simulation of one byte: RX.BYTE returns the record of the plain sequence's step and holds its bytes. -/
theorem exec_rxByte_simulates {s : State} {acc : List Byte} (h : s.Inv) (hacc : rawFrame s = .ok acc) (b : Byte) :
    ∃ t, exec (.rxByte b) s = .next t ∧ rawFrame t = .ok (accStep s.rxCap s.reqid acc b).1 ∧
      t.results = s.results ++ [.record (accStep s.rxCap s.reqid acc b).2] := by
  have hlen : acc.length = s.rxlen := (rawFrame_ok.mp hacc).1
  obtain ⟨rfl, he⟩ | ⟨rfl, he⟩ | ⟨h1, h2, he⟩ := execRxByte_cases b s
  · have hsame : Frame.SameReceiver s (s.deliver (.record Record.noEvent)) := ⟨rfl, rfl, rfl, fun _ _ => rfl⟩
    exact ⟨_, he, (Frame.rawFrame_congr hsame).trans hacc, rfl⟩
  · exact ⟨_, he.trans (acceptEnd_of_rawFrame hacc), rfl, rfl⟩
  · rw [accStep, if_neg h1, if_neg h2, hlen]
    obtain hlt | heq := h.len_le.lt_or_eq
    · rw [if_neg hlt.ne]
      exact ⟨_, he.trans (acceptData_of_lt hlt), rawFrame_append hlt hacc rfl rfl rfl, rfl⟩
    · rw [if_pos heq]
      exact ⟨_, he.trans (acceptData_of_eq heq), rfl, rfl⟩

/-! ### Whole streams -/

/-- The simulation of a wire stream. -/
theorem runInstrs_rxFeed_simulates (bs : List Byte) : ∀ {s : State} {acc : List Byte}, s.Inv → rawFrame s = .ok acc →
    ∃ t, runInstrs (rxFeed bs) s = .next t ∧ t.Inv ∧ rawFrame t = .ok (accRun s.rxCap s.reqid acc bs).1 ∧
      t.results = s.results ++ (accRun s.rxCap s.reqid acc bs).2.map .record ∧ SameOutside s t := by
  induction bs with
  | nil => exact fun {s acc} h hacc => ⟨s, rfl, h, hacc, (List.append_nil _).symm, rfl, rfl, rfl, rfl, rfl⟩
  | cons b bs ih =>
    intro s acc h hacc
    obtain ⟨u, hu, hframe, hresult⟩ := exec_rxByte_simulates h hacc b
    have hsame := sameOutside_of_exec_rxByte hu
    obtain ⟨t, ht, hinv, htframe, htresults, htsame⟩ := ih (Invariant.exec_inv rfl h hu) hframe
    rw [hsame.rxCap, hsame.reqid] at htframe htresults
    refine ⟨t, (runInstrs_cons_next hu).trans ht, hinv, htframe, ?_, hsame.trans htsame⟩
    rw [htresults, hresult, List.append_assoc]
    rfl

/-- Settles O55: the simulation, with the bytes held read off the cells. -/
theorem accumulatorRefinesPlainSequence : Obligations.AccumulatorRefinesPlainSequence := by
  intro bs s acc h hlen hcells
  have hacc : rawFrame s = .ok acc := (rawFrame_iff_of_inv h).mpr ⟨hlen, hcells⟩
  obtain ⟨t, ht, hinv, hframe, hresults, hsame⟩ := runInstrs_rxFeed_simulates bs h hacc
  obtain ⟨htlen, htcells⟩ := (rawFrame_iff_of_inv hinv).mp hframe
  exact ⟨t, ht, hresults, htlen.symm, htcells, hsame.crc, hsame.reqid, hsame.tx, hsame.rxCap, hsame.pending⟩

/-! ### Runs of the plain sequence -/

/-- A stream in two parts: the second goes on from the bytes the first leaves. -/
theorem accRun_append (cap : Nat) (q : Option Word16) (bs cs : List Byte) : ∀ acc,
    accRun cap q acc (bs ++ cs) = ((accRun cap q (accRun cap q acc bs).1 cs).1,
      (accRun cap q acc bs).2 ++ (accRun cap q (accRun cap q acc bs).1 cs).2) := by
  induction bs with
  | nil => exact fun _ => rfl
  | cons b bs ih => exact fun acc => by rw [List.cons_append, accRun, ih]; rfl

/-- Data bytes within the capacity are all kept (R183). -/
theorem accRun_of_data {cap : Nat} {q : Option Word16} (bs : List Byte) : ∀ acc, (∀ x ∈ bs, x ≠ 0x40 ∧ x ≠ 0x0d) →
    acc.length + bs.length ≤ cap → accRun cap q acc bs = (acc ++ bs, List.replicate bs.length Record.noEvent) := by
  induction bs with
  | nil => exact fun acc _ _ => by rw [accRun, List.append_nil]; rfl
  | cons b bs ih =>
    intro acc hbs hcap
    obtain ⟨⟨h1, h2⟩, hrest⟩ := List.forall_mem_cons.mp hbs
    rw [List.length_cons] at hcap
    have hstep : accStep cap q acc b = (acc ++ [b], Record.noEvent) := by
      rw [accStep, if_neg h1, if_neg h2, if_neg (by omega)]
    rw [accRun, hstep, ih (acc ++ [b]) hrest (by simp; omega), List.append_assoc]
    rfl

/-- Start markers leave the bytes alone (R182). -/
theorem accRun_of_start_markers {cap : Nat} {q : Option Word16} (n : Nat) (acc : List Byte) :
    accRun cap q acc (List.replicate n 0x40) = (acc, List.replicate n Record.noEvent) := by
  induction n with
  | zero => rfl
  | succ n ih =>
    have hstep : accStep cap q acc 0x40 = (acc, Record.noEvent) := rfl
    rw [List.replicate_succ, accRun, hstep, ih]
    rfl

/-- Settles O56: the data bytes fill the buffer, and one more clears it. -/
theorem exactlyCapacityDataBytesFit : Obligations.ExactlyCapacityDataBytesFit := by
  intro s bs b h hzero hbs h1 h2 hlen
  have hfill := accRun_of_data (cap := s.rxCap) (q := s.reqid) bs [] hbs (by simp [hlen])
  have hover : accStep s.rxCap s.reqid bs b = ([], Record.overflow) := by
    rw [accStep, if_neg h1, if_neg h2, if_pos hlen]
  have hempty := rawFrame_of_rxlen_zero hzero
  refine ⟨?_, ?_⟩
  · obtain ⟨t, ht, -, hframe, hresults, -⟩ := runInstrs_rxFeed_simulates bs h hempty
    rw [hfill] at hframe hresults
    exact ⟨t, ht, (rawFrame_ok.mp hframe).1.symm.trans hlen, by rw [hresults, List.map_replicate, hlen]; rfl⟩
  · obtain ⟨t, ht, -, hframe, hresults, -⟩ := runInstrs_rxFeed_simulates (bs ++ [b]) h hempty
    rw [accRun_append, hfill, List.nil_append, accRun, hover] at hframe hresults
    refine ⟨t, ht, (rawFrame_ok.mp hframe).1.symm, ?_⟩
    rw [hresults, List.map_append, List.map_replicate, hlen, List.append_assoc]
    rfl

/-! ### Frame events -/

/-- The events of two parts of a stream. -/
theorem eventsOf_append (rs rs' : List Result) : eventsOf (rs ++ rs') = eventsOf rs ++ eventsOf rs' :=
  List.filterMap_append

/-- A result in front adds its own event in front. -/
theorem eventsOf_cons_congr (r : Result) {rs rs' : List Result} (h : eventsOf rs = eventsOf rs') :
    eventsOf (r :: rs) = eventsOf (r :: rs') := by
  rw [← List.singleton_append, eventsOf_append, h, ← eventsOf_append, List.singleton_append]

/-- Bytes that complete nothing give no event (R185). -/
theorem eventsOf_replicate_noEvent (n : Nat) : eventsOf (List.replicate n (.record Record.noEvent)) = [] := by
  rw [eventsOf, List.filterMap_replicate_of_none rfl]

/-- With and without its start markers, a stream leads to the same state but for the results, and to the same events. -/
theorem runInstrs_rxFeed_filter (bs : List Byte) : ∀ (s : State) (rs : List Result), s.Inv →
    ∃ (t : State) (xs ys : List Result), runInstrs (rxFeed bs) s = .next { t with results := s.results ++ xs } ∧
      runInstrs (rxFeed (bs.filter (· ≠ 0x40))) { s with results := rs } = .next { t with results := rs ++ ys } ∧
      eventsOf xs = eventsOf ys := by
  induction bs with
  | nil => exact fun s rs _ => ⟨s, [], [], by rw [List.append_nil]; rfl, by rw [List.append_nil]; rfl, rfl⟩
  | cons b bs ih =>
    intro s rs h
    by_cases hb : b = 0x40
    · subst hb
      obtain ⟨-, hstart, -⟩ := Effects.startMarkerIsDiscarded s
      obtain ⟨t, xs, ys, hx, hy, hevents⟩ := ih _ rs (Invariant.exec_inv rfl h hstart)
      refine ⟨t, .record Record.noEvent :: xs, ys, ?_, hy, hevents⟩
      rw [rxFeed, List.map_cons, runInstrs_cons_next hstart]
      exact hx.trans (by rw [List.append_assoc]; rfl)
    · have hself := Frame.SameReceiver.refl s
      have hother : Frame.SameReceiver s { s with results := rs } := ⟨rfl, rfl, rfl, fun _ _ => rfl⟩
      obtain ⟨f, hf⟩ | ⟨n, r, g, hg⟩ := Frame.exec_received_congr (i := .rxByte b) rfl s
      · obtain ⟨t, ht⟩ := Invariant.everyInstructionCompletes (.rxByte b) s h
        cases (hf s hself).symm.trans ht
      · have hs := (hg _ hself).1
        have hu := (hg _ hother).1
        obtain ⟨t, xs, ys, hx, hy, hevents⟩ := ih _ (rs ++ [.record r]) (Invariant.exec_inv rfl h hs)
        refine ⟨t, .record r :: xs, .record r :: ys, ?_, ?_, eventsOf_cons_congr _ hevents⟩
        · rw [rxFeed, List.map_cons, runInstrs_cons_next hs]
          exact hx.trans (by rw [List.append_assoc]; rfl)
        · rw [List.filter_cons_of_pos (by simpa using hb), rxFeed, List.map_cons, runInstrs_cons_next hu]
          exact hy.trans (by rw [List.append_assoc]; rfl)

/-- Settles O57: from the same results. -/
theorem startMarkersDoNotMatterAnywhere : Obligations.StartMarkersDoNotMatterAnywhere := by
  intro bs s h
  obtain ⟨t, xs, ys, hx, hy, hevents⟩ := runInstrs_rxFeed_filter bs s s.results h
  exact ⟨_, _, hx, hy, rfl, by rw [List.drop_left, List.drop_left, hevents]⟩

/-! ### End to end -/

/-- Start markers, an escaped sequence that fits, and the terminator: nothing, and then the frame's record. -/
theorem accRun_of_escaped_frame {cap : Nat} (q : Option Word16) (n : Nat) {p : List Byte} (hfit : 2 * p.length ≤ cap) :
    accRun cap q [] (List.replicate n 0x40 ++ escapeSeq p ++ [0x0d]) =
      ([], List.replicate (n + (escapeSeq p).length) Record.noEvent ++ [decodeFrame (escapeSeq p) q]) := by
  have hlen : (escapeSeq p).length ≤ cap := by
    have hcount : p.countP isReserved ≤ p.length := List.countP_le_length
    rw [EscapeCodec.length_escapeSeq]
    omega
  have hdata : ∀ x ∈ escapeSeq p, x ≠ 0x40 ∧ x ≠ 0x0d := by
    intro x hx
    obtain ⟨-, h0d, h40, -⟩ := EscapeCodec.not_marker_of_mem_escapeSeq hx
    exact ⟨h40, h0d⟩
  rw [accRun_append, accRun_append, accRun_of_start_markers, accRun_of_data _ _ hdata (by simpa using hlen), List.replicate_add]
  rfl

/-- Settles O58: the request latches the id and leaves the buffer empty, the response fits, and its record is the one event. -/
theorem requestThenResponseYieldsItsReading : Obligations.RequestThenResponseYieldsItsReading := by
  intro s id unit e mant n h hzero hmant hcap
  have hreq := (Effects.txReqEmitsOneFrameAndLatchesId id s).2
  obtain ⟨t, ht, -, hframe, hresults, hsame⟩ := runInstrs_rxFeed_simulates
    (List.replicate n 0x40 ++ escapeSeq (responsePayload id unit e mant) ++ [0x0d])
    (Invariant.exec_inv rfl h hreq) (rawFrame_of_rxlen_zero hzero)
  have hfit : 2 * (responsePayload id unit e mant).length ≤ s.rxCap := by
    obtain ⟨a, b, hpayload⟩ := Response.exists_responsePayload_eq id unit e mant
    simp only [hpayload, List.length_cons, List.length_append, List.length_nil]
    omega
  simp only [accRun_of_escaped_frame _ n hfit, Response.goodResponseIsAccepted id unit e mant hmant] at hframe hresults
  refine ⟨t, (runInstrs_cons_next hreq).trans ht, ?_, hsame.tx, hsame.reqid, (rawFrame_ok.mp hframe).1.symm, hsame.crc⟩
  rw [hresults, List.append_assoc, List.drop_left, List.map_append, List.map_replicate, eventsOf_append, eventsOf_append,
    eventsOf_replicate_noEvent]
  rfl

end Sys2Proof.Proofs.Accumulator
end
